-- ==== Sys2Proof/Word.lean ====
section
/-! DEFINITION. The value types of bigint_adder that do not depend on the configuration. -/

namespace Sys2Proof

/-- A bus word, a control register, a command word: 32 bits whatever W is (10_state.md §5, 30_encoding.md R60). -/
abbrev Word := BitVec 32

/-- A byte of BUF (10_state.md R24). -/
abbrev Byte := BitVec 8

/-- An operand register index, r0 to r15. All 16 values of the 4-bit field are legal (10_state.md R20,
30_encoding.md R61), so the type itself admits exactly the legal indexes. -/
abbrev Reg := Fin 16

/-- One bit of a bus word. -/
abbrev bit (b : Bool) : BitVec 1 := BitVec.ofBool b

end Sys2Proof
end

