-- ==== Sys2Proof/Syntax.lean ====
section
/-! DEFINITION. The commands: one constructor per row of the opcode map (30_encoding.md R62), with the fields the row
uses in the order RD, RS1, RS2, RS3. -/

namespace Sys2Proof

/-- The ten commands (R62). -/
inductive Instr where
  | fromb (rd : Reg)                 -- from_bytes, R81
  | tob (rs1 : Reg)                  -- to_bytes, R82
  | ldi (rd : Reg)                   -- from_u32, R83
  | clr (rd : Reg)                   -- zero, R84
  | mov (rd rs1 : Reg)               -- copy, R86
  | add (rd rs1 rs2 : Reg)           -- add, R100
  | sub (rd rs1 rs2 : Reg)           -- sub, R101
  | cmp (rs1 rs2 : Reg)              -- compare, R85
  | modmul (rd rs1 rs2 rs3 : Reg)    -- mod_mul, R122
  | modexp (rd rs1 rs2 rs3 : Reg)    -- mod_exp, R141
  deriving DecidableEq, Repr

/-- What a word decodes to: one command, or `Illegal`, which is accepted and completes with ILLEGAL_CMD (R61, R64). -/
inductive Command where
  | instr (i : Instr)
  | illegal
  deriving DecidableEq, Repr

/-- Why the decoder rejects a word, in the order R61 makes its checks. -/
inductive Reject where
  | reservedBits      -- w[31:24] is not 0
  | unmappedOpcode    -- OP is not a row of R62
  | unusedField       -- a field the row marks "0" is not 0
  deriving DecidableEq, Repr

end Sys2Proof
end

