-- ==== Sys2Proof/Decode.lean ====
section
/-! DEFINITION. Decoding and encoding of the command word (30_encoding.md R60 to R66). -/

namespace Sys2Proof

/-! ### The fields of the command word (R61) -/

def opField (w : Word) : BitVec 8 := w.extractLsb' 0 8
def rdField (w : Word) : Reg := (w.extractLsb' 8 4).toFin
def rs1Field (w : Word) : Reg := (w.extractLsb' 12 4).toFin
def rs2Field (w : Word) : Reg := (w.extractLsb' 16 4).toFin
def rs3Field (w : Word) : Reg := (w.extractLsb' 20 4).toFin
def reservedField (w : Word) : BitVec 8 := w.extractLsb' 24 8

/-- R61's last check: the fields that the row marks "0" must be 0. -/
def unusedZero (unused : List Reg) (i : Instr) : Except Reject Instr :=
  if unused.all (· == 0) then .ok i else .error .unusedField

/-- The decode procedure of R61 over the rows of R62, with a name for each reason to reject. -/
def decodeWord (w : Word) : Except Reject Instr :=
  if reservedField w ≠ 0 then .error .reservedBits
  else match (opField w).toNat with
    | 0x01 => unusedZero [rs1Field w, rs2Field w, rs3Field w] (.fromb (rdField w))
    | 0x02 => unusedZero [rdField w, rs2Field w, rs3Field w] (.tob (rs1Field w))
    | 0x03 => unusedZero [rs1Field w, rs2Field w, rs3Field w] (.ldi (rdField w))
    | 0x04 => unusedZero [rs1Field w, rs2Field w, rs3Field w] (.clr (rdField w))
    | 0x05 => unusedZero [rs2Field w, rs3Field w] (.mov (rdField w) (rs1Field w))
    | 0x10 => unusedZero [rs3Field w] (.add (rdField w) (rs1Field w) (rs2Field w))
    | 0x11 => unusedZero [rs3Field w] (.sub (rdField w) (rs1Field w) (rs2Field w))
    | 0x20 => unusedZero [rdField w, rs3Field w] (.cmp (rs1Field w) (rs2Field w))
    | 0x30 => unusedZero [] (.modmul (rdField w) (rs1Field w) (rs2Field w) (rs3Field w))
    | 0x40 => unusedZero [] (.modexp (rdField w) (rs1Field w) (rs2Field w) (rs3Field w))
    | _ => .error .unmappedOpcode

/-- `Decode` of R61: every 32-bit word gives exactly one command or `Illegal`. -/
def decode (w : Word) : Command :=
  match decodeWord w with
  | .ok i => .instr i
  | .error _ => .illegal

/-! ### The encoder -/

/-- The word with these fields: {reserved = 0, RS3, RS2, RS1, RD, OP} (R61). -/
def commandWord (op : BitVec 8) (rd rs1 rs2 rs3 : Reg) : Word :=
  (0#8 : BitVec 8) ++ (BitVec.ofFin rs3 : BitVec 4) ++ (BitVec.ofFin rs2 : BitVec 4) ++
    (BitVec.ofFin rs1 : BitVec 4) ++ (BitVec.ofFin rd : BitVec 4) ++ op

/-- The OP column of R62. -/
def Instr.opcode : Instr → BitVec 8
  | .fromb _ => 0x01
  | .tob _ => 0x02
  | .ldi _ => 0x03
  | .clr _ => 0x04
  | .mov _ _ => 0x05
  | .add _ _ _ => 0x10
  | .sub _ _ _ => 0x11
  | .cmp _ _ => 0x20
  | .modmul _ _ _ _ => 0x30
  | .modexp _ _ _ _ => 0x40

/-- The word of a command: the encoding column of R66, the unused fields 0 as R62 says. -/
def encode (i : Instr) : Word :=
  match i with
  | .fromb rd => commandWord i.opcode rd 0 0 0
  | .tob rs1 => commandWord i.opcode 0 rs1 0 0
  | .ldi rd => commandWord i.opcode rd 0 0 0
  | .clr rd => commandWord i.opcode rd 0 0 0
  | .mov rd rs1 => commandWord i.opcode rd rs1 0 0
  | .add rd rs1 rs2 => commandWord i.opcode rd rs1 rs2 0
  | .sub rd rs1 rs2 => commandWord i.opcode rd rs1 rs2 0
  | .cmp rs1 rs2 => commandWord i.opcode 0 rs1 rs2 0
  | .modmul rd rs1 rs2 rs3 => commandWord i.opcode rd rs1 rs2 rs3
  | .modexp rd rs1 rs2 rs3 => commandWord i.opcode rd rs1 rs2 rs3

/-! ### The (match, mask) table of R62 -/

/-- A row of R62's second table: `w` is a command of the row when `(w AND mask) = pattern`. -/
structure OpcodeRow where
  mnemonic : String
  pattern : Word
  mask : Word
  deriving DecidableEq, Repr

/-- The ten rows, in R62's order. -/
def opcodeRows : List OpcodeRow :=
  [⟨"FROMB", 0x00000001, 0xFFFFF0FF⟩, ⟨"TOB", 0x00000002, 0xFFFF0FFF⟩, ⟨"LDI", 0x00000003, 0xFFFFF0FF⟩,
   ⟨"CLR", 0x00000004, 0xFFFFF0FF⟩, ⟨"MOV", 0x00000005, 0xFFFF00FF⟩] ++
  [⟨"ADD", 0x00000010, 0xFFF000FF⟩, ⟨"SUB", 0x00000011, 0xFFF000FF⟩, ⟨"CMP", 0x00000020, 0xFFF00FFF⟩,
   ⟨"MODMUL", 0x00000030, 0xFF0000FF⟩, ⟨"MODEXP", 0x00000040, 0xFF0000FF⟩]

/-- The row matches the word (R62). -/
def OpcodeRow.matchesWord (r : OpcodeRow) (w : Word) : Bool := w &&& r.mask == r.pattern

/-- The word is a command by the table: some row matches it (R62, R64). -/
def legalWord (w : Word) : Bool := opcodeRows.any (·.matchesWord w)

/-- The mnemonic of a command, as R62 spells it. -/
def Instr.mnemonic : Instr → String
  | .fromb _ => "FROMB"
  | .tob _ => "TOB"
  | .ldi _ => "LDI"
  | .clr _ => "CLR"
  | .mov _ _ => "MOV"
  | .add _ _ _ => "ADD"
  | .sub _ _ _ => "SUB"
  | .cmp _ _ => "CMP"
  | .modmul _ _ _ _ => "MODMUL"
  | .modexp _ _ _ _ => "MODEXP"

/-! ### Assembler text (R66) -/

/-- `r0` to `r15` (R66). -/
def regText (r : Reg) : String := "r" ++ toString r.val

/-- The assembler text of a command: its mnemonic in lower case and its used operands in the order RD, RS1, RS2, RS3
(R66; one space after the mnemonic and after each comma, as in R66's examples: log 17). -/
def Instr.text : Instr → String
  | .fromb rd => "fromb " ++ regText rd
  | .tob rs1 => "tob " ++ regText rs1
  | .ldi rd => "ldi " ++ regText rd
  | .clr rd => "clr " ++ regText rd
  | .mov rd rs1 => "mov " ++ regText rd ++ ", " ++ regText rs1
  | .add rd rs1 rs2 => "add " ++ regText rd ++ ", " ++ regText rs1 ++ ", " ++ regText rs2
  | .sub rd rs1 rs2 => "sub " ++ regText rd ++ ", " ++ regText rs1 ++ ", " ++ regText rs2
  | .cmp rs1 rs2 => "cmp " ++ regText rs1 ++ ", " ++ regText rs2
  | .modmul rd rs1 rs2 rs3 =>
    "modmul " ++ regText rd ++ ", " ++ regText rs1 ++ ", " ++ regText rs2 ++ ", " ++ regText rs3
  | .modexp rd rs1 rs2 rs3 =>
    "modexp " ++ regText rd ++ ", " ++ regText rs1 ++ ", " ++ regText rs2 ++ ", " ++ regText rs3

/-! ### The host's words -/

/-- The command word given by `nbits` bits of `w`; the bits above them are 0, and a command has 32 (R60; log 21). -/
def tableWord (nbits w : Nat) : Word := BitVec.ofNat 32 (w % 2 ^ nbits)

/-- The command the decoder reads from the word `w` of `nbits` bits, bit 0 the least significant. -/
def decodeTableWord (nbits w : Nat) : Option Instr :=
  match decodeWord (tableWord nbits w) with
  | .ok i => some i
  | .error _ => none

end Sys2Proof
end

