-- ==== Sys2Proof/Config.lean ====
section
/-! DEFINITION. The parameters of one block (00_scope.md R6, 20_memory.md R40), before they are checked. The check of R7
and the type of the checked configurations are in WellFormed.lean. The spec leaves no value of a command open, so there
is no free value here (93_implementation_defined.md). -/

namespace Sys2Proof

/-- The parameters of R6 as they may be asked for, legal or not. `window` is the size in bytes of the window that the
platform gives the block (R40: "at least `0x400 + NB` bytes, rounded up to a multiple of 4 KiB"). -/
structure Params where
  n : Nat
  w : Nat
  base : Nat
  window : Nat
  deriving DecidableEq, Repr

/-- WIDTH = N * W, the bits of one BigInt (R6). -/
def Params.width (p : Params) : Nat := p.n * p.w

/-- NB = WIDTH / 8, the bytes of one BigInt (R6). -/
def Params.nb (p : Params) : Nat := p.width / 8

/-- NREG, the number of operand registers: 16 (R6). -/
def nreg : Nat := 16

/-- The offset of BUF[0] in the window (20_memory.md R41). -/
def bufOffset : Nat := 0x400

/-- The size of a page of the window: 4 KiB (R40). -/
def pageBytes : Nat := 4096

/-- The defaults of R6, N = 64 and W = 32. BASE is OPEN: 0 and the least window R40 allows stand for it in
`State.reset` only (DESIGN CHOICE, log 2); statements hold for every configuration. -/
def Params.default : Params := { n := 64, w := 32, base := 0, window := 4096 }

end Sys2Proof
end

