-- ==== Sys2Proof/WellFormed.lean ====
section
/-! DEFINITION. Which parameters are a configuration of this spec (00_scope.md R7, 20_memory.md R40), and the type of the
checked ones. A command needs no check of its own: its operands are `Reg`, and no register index is illegal
(30_encoding.md R61). Which WORDS are commands is the decoder's check (Decode.lean: `decodeWord`, `legalWord`). -/

namespace Sys2Proof

/-- The constraints of R7, in its order, and of R40 on the platform's parameters. -/
def Params.wf (p : Params) : Bool :=
  (p.w == 8 || p.w == 16 || p.w == 32 || p.w == 64) &&
  (decide (1 ≤ p.n) && decide (p.n ≤ 65535)) &&
  p.width % 32 == 0 &&
  decide (32 ≤ p.width) &&
  p.base % pageBytes == 0 &&
  p.window % pageBytes == 0 &&
  decide (bufOffset + p.nb ≤ p.window)

/-- A configuration: parameters that pass R7 and R40. R7: "A configuration that breaks one is not an instance of this
spec, and a model refuses it"; so no value of this type breaks one. -/
structure Config where
  params : Params
  ok : params.wf = true
  deriving DecidableEq, Repr

namespace Config

/-- The configuration of these parameters, or the refusal of R7. -/
def ofParams? (p : Params) : Option Config :=
  if h : p.wf = true then some ⟨p, h⟩ else none

abbrev n (c : Config) : Nat := c.params.n
abbrev w (c : Config) : Nat := c.params.w
abbrev base (c : Config) : Nat := c.params.base
abbrev window (c : Config) : Nat := c.params.window
abbrev width (c : Config) : Nat := c.params.width
abbrev nb (c : Config) : Nat := c.params.nb

/-- The default configuration of R6, at the base and window of log 2. -/
def default : Config := ⟨Params.default, by decide⟩

end Config

end Sys2Proof
end

