-- ==== Sys2Proof/Machine/State.lean ====
section
/-! DEFINITION. Everything the spec gives the machine, as plain data (10_state.md R35), its inputs, the reasons a step can
stop, and the state after reset (R34). -/

namespace Sys2Proof.Machine

/-- The bytes of BUF as (index, byte) cells: indexes strictly rising, none with the byte 0x00, which is what an
unlisted index reads as, the reset contents of 10_state.md R34 (log 10). -/
abbrev Memory := List Host.Cell

/-! ### The inputs of the block -/

/-- The width of a bus access (20_memory.md R45 names these four). -/
inductive AccessWidth where
  | bits8
  | bits16
  | bits32
  | bits64
  deriving DecidableEq, Repr

/-- What an access does. -/
inductive AccessKind where
  | read
  | write (v : Word)
  deriving DecidableEq, Repr

/-- One host access, at a bus address (R40), legal or not (R45). -/
structure BusAccess where
  addr : Nat
  width : AccessWidth
  lanes : BitVec 4     -- the byte enables of the 32-bit word
  kind : AccessKind
  deriving DecidableEq, Repr

/-- What happens next at the block: a host access, the engine's turn, or the platform's reset input
(00_scope.md R3, 70_reset_and_hazards.md R190). A list of these is one interleaving of R203. -/
inductive Event where
  | access (a : BusAccess)
  | engine
  | powerOnReset
  deriving DecidableEq, Repr

/-! ### The state -/

/-- The architectural state of one instance: the record of 10_state.md R35, field for field. -/
structure Block (cfg : Config) where
  regs : Vector (BitVec cfg.width) 16   -- R[0..15], R20
  buf : Memory                          -- BUF[0..NB-1], R24
  arg : Word                            -- ARG, R25
  cmd : Word                            -- CMD, R26
  ie : Bool                             -- CTRL.IE, R28
  done : Bool                           -- STATUS.DONE, R29
  borrow : Bool                         -- STATUS.BORROW, R23
  cmp : BitVec 2                        -- STATUS.CMP, R23
  overrun : Bool                        -- STATUS.OVERRUN, R29
  errcode : BitVec 4                    -- STATUS.ERRCODE, R30
  pending : Option Command              -- R32; BUSY = pending.isSome
  deriving DecidableEq, Repr

/-- `Reset()` of 70_reset_and_hazards.md R191: every piece of state at its value of 10_state.md R34. -/
def Block.reset (cfg : Config) : Block cfg where
  regs := Vector.replicate 16 0
  buf := []
  arg := 0
  cmd := 0
  ie := false
  done := false
  borrow := false
  cmp := 0
  overrun := false
  errcode := 0
  pending := none

/-- The machine: the block of one configuration, what happens next at it, and what the host has read from it.
`cfg` is the constant of R35's last sentence, which no step changes (log 1). `events` and `hostReads` are the model's
own: the interleaving of R203 (log 3) and the host's part of the observation of R204, newest first (log 4). -/
structure State where
  cfg : Config
  block : Block cfg
  events : List Event
  hostReads : List Word
  deriving DecidableEq, Repr

/-- The machine of a configuration right after reset, with no event to come (R34, R192). -/
def State.resetOf (cfg : Config) : State where
  cfg := cfg
  block := Block.reset cfg
  events := []
  hostReads := []

/-- The machine right after reset in the default configuration (R6). -/
def State.reset : State := State.resetOf Config.default

/-! ### Why a step stops -/

/-- Faults of the model. The spec's own errors are no faults: they complete with a code (60_exceptions.md R163). -/
inductive Fault where
  /-- Raised by a host access whose address lies outside the block's window (20_memory.md R40): it does not reach the
  block, and what answers it is outside the spec. Safe: nothing is claimed about it (log 8). -/
  | addressOutsideWindow
  deriving DecidableEq, Repr

/-- Refusals of the model. -/
inductive Refusal where
  /-- A command with no meaning yet, by its mnemonic. Raised by no arm. Safe. -/
  | notModelled (mnemonic : String)
  /-- Raised by a host access that is not a 32-bit access at an aligned offset with all four lanes. 20_memory.md R45:
  "A model refuses such an access: it has no step for it". Safe: nothing is claimed about it (log 7). -/
  | busProtocolViolation
  deriving DecidableEq, Repr

/-! ### Errors of a command -/

/-- The error conditions of 60_exceptions.md R164. -/
inductive ErrorCode where
  | illegalCmd
  | invalidLength
  | divideByZero
  | operandRange
  deriving DecidableEq, Repr

/-- The outcome of `Execute(c)` in R160: the block with every write of the command made, or an error. -/
inductive ExecResult (cfg : Config) where
  | ok (b : Block cfg)
  | error (e : ErrorCode)
  deriving DecidableEq, Repr

end Sys2Proof.Machine
end

