-- ==== Sys2Proof/Machine/Ops.lean ====
section
/-! DEFINITION. The named operations over BUF, the operand registers and the command life cycle. -/

namespace Sys2Proof.Machine

/-! ### BUF as memory -/

/-- The byte at index `k`: 0x00 where nothing is listed (10_state.md R34). -/
def Memory.read : Memory → Nat → Byte
  | [], _ => 0
  | c :: rest, k => if c.1 = k then c.2 else Memory.read rest k

/-- The memory without a cell at `k`. -/
def Memory.erase (m : Memory) (k : Nat) : Memory := m.filter (fun c => decide (c.1 ≠ k))

/-- The memory with the cell `(k, v)` before the first cell of a greater index. -/
def Memory.insertCell : Memory → Nat → Byte → Memory
  | [], k, v => [(k, v)]
  | c :: rest, k, v => if k < c.1 then (k, v) :: c :: rest else c :: Memory.insertCell rest k v

/-- `BUF[k] <- v`, keeping the canonical form: a byte 0x00 is not listed. -/
def Memory.write (m : Memory) (k : Nat) (v : Byte) : Memory :=
  if v = 0 then m.erase k else (m.erase k).insertCell k v

/-- The canonical form of a buffer of `nb` bytes: indexes strictly rising and below `nb`, no byte 0x00 listed. -/
abbrev Memory.wf (m : Memory) (nb : Nat) : Prop :=
  m.Pairwise (fun c d => c.1 < d.1) ∧ ∀ c ∈ m, c.1 < nb ∧ c.2 ≠ 0

/-- Bytes `first`, `first + 1`, … of `bs` written in that order. -/
def Memory.writeBytes (m : Memory) (first : Nat) : List Byte → Memory
  | [] => m
  | v :: vs => Memory.writeBytes (m.write first v) (first + 1) vs

/-! ### Operand registers (10_state.md R20): none is hardwired -/

def Block.reg {cfg : Config} (b : Block cfg) (i : Reg) : BitVec cfg.width := b.regs[i]

/-- `R[i] <- v`. -/
def Block.setReg {cfg : Config} (b : Block cfg) (i : Reg) (v : BitVec cfg.width) : Block cfg :=
  { b with regs := b.regs.set i v }

/-- STATUS.BORROW <- `v` (R23). -/
def Block.setBorrow {cfg : Config} (b : Block cfg) (v : Bool) : Block cfg := { b with borrow := v }

/-- STATUS.CMP <- `v` (R23). -/
def Block.setCmp {cfg : Config} (b : Block cfg) (v : BitVec 2) : Block cfg := { b with cmp := v }

/-- BUF <- `m`. -/
def Block.setBuf {cfg : Config} (b : Block cfg) (m : Memory) : Block cfg := { b with buf := m }

/-! ### The command life cycle (60_exceptions.md) -/

/-- `Accept(v)` of R161: the word is decoded now, legal or not. -/
def Block.accept {cfg : Config} (b : Block cfg) (v : Word) : Block cfg :=
  { b with cmd := v, pending := some (decode v), done := false, errcode := 0 }

/-- A write dropped while busy: STATUS.OVERRUN <- 1 and nothing else (R162, 20_memory.md R48). -/
def Block.dropWrite {cfg : Config} (b : Block cfg) : Block cfg := { b with overrun := true }

/-- The codes of R164. -/
def ErrorCode.code : ErrorCode → BitVec 4
  | .illegalCmd => 1
  | .invalidLength => 2
  | .divideByZero => 3
  | .operandRange => 4

/-- The ok arm of `Complete()` in R160, after the command's writes. -/
def Block.completeOk {cfg : Config} (b : Block cfg) : Block cfg :=
  { b with errcode := 0, pending := none, done := true }

/-- The error arm of `Complete()` in R160: what the block does when a command raises an error (R163). This is all the
exception entry there is: nothing is saved and there is no vector (R169); no operation returns from it (R170). -/
def Block.completeError {cfg : Config} (b : Block cfg) (e : ErrorCode) : Block cfg :=
  { b with errcode := e.code, pending := none, done := true }

/-- The block after `Complete()` of a command with this outcome, started in block `b` (R160). An error drops every
write of the command (R163). -/
def Block.complete {cfg : Config} (b : Block cfg) : ExecResult cfg → Block cfg
  | .ok b' => b'.completeOk
  | .error e => b.completeError e

/-! ### The machine around the block -/

/-- The machine with another state of its block. -/
abbrev State.withBlock (s : State) (b : Block s.cfg) : State := { s with block := b }

/-- The machine with these events to come. -/
abbrev State.withEvents (s : State) (es : List Event) : State := { s with events := es }

/-- The machine after the host has read `v`. -/
abbrev State.logRead (s : State) (v : Word) : State := { s with hostReads := v :: s.hostReads }

/-- `Complete()` with this outcome of the command: the machine always goes on (R160, R169). -/
def State.complete (s : State) (r : ExecResult s.cfg) : Host.Outcome State Fault Refusal :=
  .next (s.withBlock (s.block.complete r))

end Sys2Proof.Machine
end

