-- ==== Sys2Proof/Machine/Flags.lean ====
section
/-! DEFINITION. STATUS, its derived bits, the result flags and the interrupt line (10_state.md R23, R29, R30, R33). -/

namespace Sys2Proof.Machine

/-! ### The codes of STATUS.CMP (R23) -/

def cmpEqual : BitVec 2 := 0b00
def cmpLess : BitVec 2 := 0b01
def cmpGreater : BitVec 2 := 0b10

/-! ### Derived bits -/

/-- STATUS.BUSY: `pending != none` (R32). -/
def Block.busy {cfg : Config} (b : Block cfg) : Bool := b.pending.isSome

/-- STATUS.ERR: `ERRCODE != 0`, computed at every read (R30). -/
def Block.err {cfg : Config} (b : Block cfg) : Bool := decide (b.errcode ≠ 0)

/-- The interrupt line: CTRL.IE AND STATUS.DONE, with no storage of its own (R33, 60_exceptions.md R168). -/
def Block.irq {cfg : Config} (b : Block cfg) : Bool := b.ie && b.done

/-- The 32 bits of STATUS (R29), the most significant first:
31:12 reserved, ERRCODE, reserved, OVERRUN, CMP, BORROW, ERR, DONE, BUSY. -/
def Block.statusWord {cfg : Config} (b : Block cfg) : Word :=
  (0#20 : BitVec 20) ++ b.errcode ++ (0#1 : BitVec 1) ++ bit b.overrun ++ b.cmp ++ bit b.borrow ++ bit b.err ++
    bit b.done ++ bit b.busy

/-- The 32 bits of CTRL: SRST and the reserved bits read 0 (R28). -/
def Block.ctrlWord {cfg : Config} (b : Block cfg) : Word := (0#31 : BitVec 31) ++ bit b.ie

/-- A write to STATUS: a 1 in bit 1 clears DONE, a 1 in bit 6 clears OVERRUN, the other bits are ignored (R29). -/
def Block.ackStatus {cfg : Config} (b : Block cfg) (v : Word) : Block cfg :=
  { b with done := b.done && !v.getLsbD 1, overrun := b.overrun && !v.getLsbD 6 }

end Sys2Proof.Machine
end

