-- ==== Sys2Proof/Machine/Operands.lean ====
section
/-! DEFINITION. The operand forms: the word view of a BigInt (10_state.md R21), ARG as an immediate (30_encoding.md R63),
PARAM (10_state.md R27) and the byte sequences of FROMB and TOB (40_conversion.md R81, R82). -/

namespace Sys2Proof.Machine

/-- `word_j(v) = v[j*W + W - 1 : j*W]` (00_scope.md R9, 10_state.md R21). -/
def wordAt (w j v : Nat) : Nat := v / 2 ^ (j * w) % 2 ^ w

/-- ARG as a byte count: 32 bits, unsigned, unscaled (30_encoding.md R63). -/
abbrev Block.argLength {cfg : Config} (b : Block cfg) : Nat := b.arg.toNat

/-- ARG as LDI's value: `zext_WIDTH(ARG)` (R63, 40_conversion.md R83). -/
def Block.argValue {cfg : Config} (b : Block cfg) : BitVec cfg.width := b.arg.setWidth cfg.width

/-- PARAM: {reserved 0, NREG - 1, W, N}, a constant of the configuration (10_state.md R27). -/
def paramWord (cfg : Config) : Word :=
  (0#4 : BitVec 4) ++ BitVec.ofNat 4 (nreg - 1) ++ BitVec.ofNat 8 cfg.w ++ BitVec.ofNat 16 cfg.n

/-- The loop of R81: `v = v * 256 + BUF[k]` for k = 0 to len - 1, so BUF[0] is the most significant byte. -/
def fromBytes (m : Memory) (len : Nat) : Nat :=
  (List.range len).foldl (fun v k => v * 256 + (m.read k).toNat) 0

/-- Byte k of the `len`-byte big-endian sequence of `v`: `(v div 2^(8 * (len - 1 - k))) mod 256` (R82). -/
def byteOf (v len k : Nat) : Byte := BitVec.ofNat 8 (v / 2 ^ (8 * (len - 1 - k)) % 256)

/-- The loop of R82: `BUF[k] <- byte k` for k = 0 to len - 1. -/
def toBytes (m : Memory) (v len : Nat) : Memory :=
  m.writeBytes 0 ((List.range len).map (byteOf v len))

/-- Bus word k of the BUF window: {BUF[4k+3], BUF[4k+2], BUF[4k+1], BUF[4k]} (20_memory.md R46). -/
def Memory.busWord (m : Memory) (k : Nat) : Word :=
  m.read (4 * k + 3) ++ m.read (4 * k + 2) ++ m.read (4 * k + 1) ++ m.read (4 * k)

/-- `BUF[4k + i] <- v[8i + 7 : 8i]` for i in 0..3 (20_memory.md R44, R46). -/
def Memory.writeBusWord (m : Memory) (k : Nat) (v : Word) : Memory :=
  m.writeBytes (4 * k) [v.extractLsb' 0 8, v.extractLsb' 8 8, v.extractLsb' 16 8, v.extractLsb' 24 8]

end Sys2Proof.Machine
end

