-- ==== Sys2Proof/Machine/Bus.lean ====
section
/-! DEFINITION. The register window: its map, reads, writes and the legality of an access (20_memory.md). -/

namespace Sys2Proof.Machine

/-- What an offset of the window names (R41). -/
inductive WindowReg where
  | param
  | ctrl
  | status
  | cmd
  | arg
  | buf (k : Nat)     -- bus word k of the BUF window
  | reserved
  deriving DecidableEq, Repr

/-- The register map of R41, for any offset. -/
def windowReg (cfg : Config) (off : Nat) : WindowReg :=
  if off = 0x000 then .param
  else if off = 0x004 then .ctrl
  else if off = 0x008 then .status
  else if off = 0x00C then .cmd
  else if off = 0x010 then .arg
  else if bufOffset ≤ off ∧ off < bufOffset + cfg.nb ∧ off % 4 = 0 then .buf ((off - bufOffset) / 4)
  else .reserved

/-- `MemRead(off, 4)` (R43). A read changes nothing; a reserved offset reads 0 (R42). -/
def Block.memRead {cfg : Config} (b : Block cfg) (off : Nat) : Word :=
  match windowReg cfg off with
  | .param => paramWord cfg
  | .ctrl => b.ctrlWord
  | .status => b.statusWord
  | .cmd => b.cmd
  | .arg => b.arg
  | .buf k => b.buf.busWord k
  | .reserved => 0

/-- A write to CTRL: SRST = 1 resets the block and wins over IE; otherwise IE is written (10_state.md R28, R44). It takes
effect whether the block is busy or not. -/
def Block.writeCtrl {cfg : Config} (b : Block cfg) (v : Word) : Block cfg :=
  if v.getLsbD 1 then Block.reset cfg else { b with ie := v.getLsbD 0 }

/-- A write that is dropped while busy (R48, 60_exceptions.md R162). -/
def Block.unlessBusy {cfg : Config} (b : Block cfg) (written : Block cfg) : Block cfg :=
  if b.busy then b.dropWrite else written

/-- ARG <- `v` (10_state.md R25). -/
def Block.setArg {cfg : Config} (b : Block cfg) (v : Word) : Block cfg := { b with arg := v }

/-- `MemWrite(off, 4, v)` (R44). -/
def Block.memWrite {cfg : Config} (b : Block cfg) (off : Nat) (v : Word) : Block cfg :=
  match windowReg cfg off with
  | .param => b
  | .ctrl => b.writeCtrl v
  | .status => b.ackStatus v
  | .cmd => b.unlessBusy (b.accept v)
  | .arg => b.unlessBusy (b.setArg v)
  | .buf k => b.unlessBusy (b.setBuf (b.buf.writeBusWord k v))
  | .reserved => b

/-- The bus address lies in the window that the platform gives the block (R40). -/
def inWindow (cfg : Config) (addr : Nat) : Bool :=
  decide (cfg.base ≤ addr) && decide (addr < cfg.base + cfg.window)

/-- The only legal access: 32 bits, all four lanes, an offset that is a multiple of 4 (R45). -/
def BusAccess.legal (a : BusAccess) (cfg : Config) : Bool :=
  a.width == .bits32 && a.lanes == 0b1111 && (a.addr - cfg.base) % 4 == 0

/-- One host access. An access that misses the window does not reach the block (log 8); an illegal one is refused, as
R45 says; both are judged before anything happens (log 9). -/
def State.hostAccess (s : State) (a : BusAccess) : Host.Outcome State Fault Refusal :=
  if !inWindow s.cfg a.addr then .fault .addressOutsideWindow
  else if !a.legal s.cfg then .refused .busProtocolViolation
  else match a.kind with
    | .read => .next (s.logRead (s.block.memRead (a.addr - s.cfg.base)))
    | .write v => .next (s.withBlock (s.block.memWrite (a.addr - s.cfg.base) v))

end Sys2Proof.Machine
end

