-- ==== Sys2Proof/Machine/AddSub.lean ====
section
/-! DEFINITION. ADD, SUB and CMP on their word-serial units: the bigint_adder (41_add_sub.md R100), the
bigint_subtractor (R101) and the bigint_comparator (40_conversion.md R85). The units follow the word-level pseudocode;
that each gives the value-level result is a theorem (log 12). -/

namespace Sys2Proof.Machine

/-- The loop of R100 from word `j` on, `k` words to go: carry `c`, and `r` the words below `j` of the result. -/
def addWords (w a b : Nat) : (k j c r : Nat) → Nat
  | 0, _, _, r => r
  | k + 1, j, c, r =>
    let sum := wordAt w j a + wordAt w j b + c
    addWords w a b k (j + 1) (sum / 2 ^ w) (r + sum % 2 ^ w * 2 ^ (j * w))

/-- The bigint_adder: N words, the least significant first, the last carry discarded (R100). -/
def bigintAdder (cfg : Config) (a b : BitVec cfg.width) : BitVec cfg.width :=
  BitVec.ofNat cfg.width (addWords cfg.w a.toNat b.toNat cfg.n 0 0 0)

/-- The loop of R101 from word `j` on, `k` words to go: borrow `brw`, and `r` the words below `j` of the result. The
difference `d` is an integer, as in R101. -/
def subWords (w a b : Nat) : (k j : Nat) → (brw : Bool) → (r : Nat) → Nat × Bool
  | 0, _, brw, r => (r, brw)
  | k + 1, j, brw, r =>
    let d : Int := wordAt w j a - wordAt w j b - brw.toNat
    if d < 0 then subWords w a b k (j + 1) true (r + (d + 2 ^ w).toNat * 2 ^ (j * w))
    else subWords w a b k (j + 1) false (r + d.toNat * 2 ^ (j * w))

/-- The bigint_subtractor: the difference and the last borrow (R101). -/
def bigintSubtractor (cfg : Config) (a b : BitVec cfg.width) : BitVec cfg.width × Bool :=
  let out := subWords cfg.w a.toNat b.toNat cfg.n 0 false 0
  (BitVec.ofNat cfg.width out.1, out.2)

/-- The loop of R85 from word `k - 1` down to word 0. -/
def compareWords (w a b : Nat) : (k : Nat) → BitVec 2
  | 0 => cmpEqual
  | j + 1 =>
    if wordAt w j a > wordAt w j b then cmpGreater
    else if wordAt w j a < wordAt w j b then cmpLess
    else compareWords w a b j

/-- The bigint_comparator: N words, the most significant first (R85). -/
def bigintComparator (cfg : Config) (a b : BitVec cfg.width) : BitVec 2 :=
  compareWords cfg.w a.toNat b.toNat cfg.n

/-- ADD rd, rs1, rs2 (R100). No flag is written. -/
def execAdd (rd rs1 rs2 : Reg) (s : State) : Host.Outcome State Fault Refusal :=
  s.complete (.ok (s.block.setReg rd (bigintAdder s.cfg (s.block.reg rs1) (s.block.reg rs2))))

/-- SUB rd, rs1, rs2 (R101). BORROW is always written. -/
def execSub (rd rs1 rs2 : Reg) (s : State) : Host.Outcome State Fault Refusal :=
  let out := bigintSubtractor s.cfg (s.block.reg rs1) (s.block.reg rs2)
  s.complete (.ok ((s.block.setReg rd out.1).setBorrow out.2))

/-- CMP rs1, rs2 (R85). No register is written. -/
def execCmp (rs1 rs2 : Reg) (s : State) : Host.Outcome State Fault Refusal :=
  s.complete (.ok (s.block.setCmp (bigintComparator s.cfg (s.block.reg rs1) (s.block.reg rs2))))

end Sys2Proof.Machine
end

