-- ==== Sys2Proof/Machine/Conversion.lean ====
section
/-! DEFINITION. FROMB, TOB, LDI, CLR and MOV (40_conversion.md). Each meaning is `Complete()` of 60_exceptions.md R160
applied to the command's `Execute`. -/

namespace Sys2Proof.Machine

/-- FROMB rd (R81): from_bytes. INVALID_LENGTH when ARG > NB. -/
def execFromb (rd : Reg) (s : State) : Host.Outcome State Fault Refusal :=
  s.complete <|
    if s.cfg.nb < s.block.argLength then .error .invalidLength
    else .ok (s.block.setReg rd (BitVec.ofNat s.cfg.width (fromBytes s.block.buf s.block.argLength)))

/-- TOB rs1 (R82): to_bytes, the value truncated or zero-padded to ARG bytes. INVALID_LENGTH when ARG > NB. -/
def execTob (rs1 : Reg) (s : State) : Host.Outcome State Fault Refusal :=
  s.complete <|
    if s.cfg.nb < s.block.argLength then .error .invalidLength
    else .ok (s.block.setBuf (toBytes s.block.buf (s.block.reg rs1).toNat s.block.argLength))

/-- LDI rd (R83): from_u32. -/
def execLdi (rd : Reg) (s : State) : Host.Outcome State Fault Refusal :=
  s.complete (.ok (s.block.setReg rd s.block.argValue))

/-- CLR rd (R84): zero. -/
def execClr (rd : Reg) (s : State) : Host.Outcome State Fault Refusal :=
  s.complete (.ok (s.block.setReg rd 0))

/-- MOV rd, rs1 (R86): copy. -/
def execMov (rd rs1 : Reg) (s : State) : Host.Outcome State Fault Refusal :=
  s.complete (.ok (s.block.setReg rd (s.block.reg rs1)))

end Sys2Proof.Machine
end

