-- ==== Sys2Proof/Machine/ModMul.lean ====
section
/-! DEFINITION. The MulRed datapath (42_modmul.md R120) and MODMUL (R122). -/

namespace Sys2Proof.Machine

/-- `while t >= m: t = t - m`, with at most `fuel` subtractions. -/
def trialSubtract (m : Nat) : (fuel t : Nat) → Nat
  | 0, t => t
  | fuel + 1, t => if m ≤ t then trialSubtract m fuel (t - m) else t

/-- The trial subtraction of R120 to its end: with `m > 0`, `t` subtractions always suffice (log 11). -/
def reduceMod (m t : Nat) : Nat := trialSubtract m t t

/-- One iteration of R120 for a bit of `b`: double and reduce, then add and reduce if the bit is set. The accumulator is
exact; that it fits in WIDTH+1 bits is a theorem (log 11). -/
def mulRedStep (a m : Nat) (bitSet : Bool) (t : Nat) : Nat :=
  let doubled := reduceMod m (t + t)
  if bitSet then reduceMod m (doubled + a) else doubled

/-- The iterations of R120 for bits `k - 1` down to 0 of `b`. -/
def mulRedLoop (a b m : Nat) : (k t : Nat) → Nat
  | 0, t => t
  | i + 1, t => mulRedLoop a b m i (mulRedStep a m (b.testBit i) t)

/-- MulRed(a, b, m) of R120: every one of the WIDTH bits of `b` is scanned. -/
def mulRed (width a b m : Nat) : Nat := mulRedLoop a b m width 0

/-- MODMUL rd, rs1, rs2, rs3 (R122): DIVIDE_BY_ZERO first, then OPERAND_RANGE (60_exceptions.md R166). -/
def execModmul (rd rs1 rs2 rs3 : Reg) (s : State) : Host.Outcome State Fault Refusal :=
  let a := s.block.reg rs1
  let b := s.block.reg rs2
  let m := s.block.reg rs3
  s.complete <|
    if m = 0 then .error .divideByZero
    else if m ≤ a ∨ m ≤ b then .error .operandRange
    else .ok (s.block.setReg rd (BitVec.ofNat s.cfg.width (mulRed s.cfg.width a.toNat b.toNat m.toNat)))

end Sys2Proof.Machine
end

