-- ==== Sys2Proof/Machine/ModExp.lean ====
section
/-! DEFINITION. The ExpMod datapath (43_modexp.md R140) and MODEXP (R141). -/

namespace Sys2Proof.Machine

/-- One iteration of R140 for a bit of the exponent: square, then multiply by `base` if the bit is set. -/
def expModStep (width base m : Nat) (bitSet : Bool) (acc : Nat) : Nat :=
  let squared := mulRed width acc acc m
  if bitSet then mulRed width squared base m else squared

/-- The iterations of R140 for bits `k - 1` down to 0 of `e`. -/
def expModLoop (width base e m : Nat) : (k acc : Nat) → Nat
  | 0, acc => acc
  | i + 1, acc => expModLoop width base e m i (expModStep width base m (e.testBit i) acc)

/-- ExpMod(base, e, m) of R140: all WIDTH bits of `e` are scanned, leading zero bits too. -/
def expMod (width base e m : Nat) : Nat := expModLoop width base e m width 1

/-- MODEXP rd, rs1, rs2, rs3 (R141): any base and any exponent; DIVIDE_BY_ZERO when the modulus is 0. -/
def execModexp (rd rs1 rs2 rs3 : Reg) (s : State) : Host.Outcome State Fault Refusal :=
  let base := s.block.reg rs1
  let e := s.block.reg rs2
  let m := s.block.reg rs3
  s.complete <|
    if m = 0 then .error .divideByZero
    else .ok (s.block.setReg rd (BitVec.ofNat s.cfg.width (expMod s.cfg.width base.toNat e.toNat m.toNat)))

end Sys2Proof.Machine
end

