-- ==== Sys2Proof/Machine/Dispatch.lean ====
section
/-! DEFINITION. One arm per command: `exec i s` is the completion step of the command `i` (60_exceptions.md R160). -/

namespace Sys2Proof.Machine

def exec (i : Instr) (s : State) : Host.Outcome State Fault Refusal :=
  match i with
  | .fromb rd => Sys2Proof.Machine.execFromb rd s
  | .tob rs1 => Sys2Proof.Machine.execTob rs1 s
  | .ldi rd => Sys2Proof.Machine.execLdi rd s
  | .clr rd => Sys2Proof.Machine.execClr rd s
  | .mov rd rs1 => Sys2Proof.Machine.execMov rd rs1 s
  | .add rd rs1 rs2 => Sys2Proof.Machine.execAdd rd rs1 rs2 s
  | .sub rd rs1 rs2 => Sys2Proof.Machine.execSub rd rs1 rs2 s
  | .cmp rs1 rs2 => Sys2Proof.Machine.execCmp rs1 rs2 s
  | .modmul rd rs1 rs2 rs3 => Sys2Proof.Machine.execModmul rd rs1 rs2 rs3 s
  | .modexp rd rs1 rs2 rs3 => Sys2Proof.Machine.execModexp rd rs1 rs2 rs3 s

end Sys2Proof.Machine
end

