-- ==== Sys2Proof/Machine/Engine.lean ====
section
/-! DEFINITION. The engine's turn (60_exceptions.md R160) and what each event does (70_reset_and_hazards.md R190, R203). -/

namespace Sys2Proof.Machine

/-- The completion step. It is enabled exactly when a command is pending (R160); with none the turn does nothing
(log 5). An illegal word completes with ILLEGAL_CMD (R164). -/
def engineTurn (s : State) : Host.Outcome State Fault Refusal :=
  match s.block.pending with
  | none => .next s
  | some .illegal => s.complete (.error .illegalCmd)
  | some (.instr i) => exec i s

/-- The platform's reset input: the same effect as SRST (R190, R191). -/
def powerOnReset (s : State) : Host.Outcome State Fault Refusal :=
  .next (s.withBlock (Block.reset s.cfg))

/-- What an event does to the machine whose later events are already in `s`. -/
def handleEvent (e : Event) (s : State) : Host.Outcome State Fault Refusal :=
  match e with
  | .access a => s.hostAccess a
  | .engine => engineTurn s
  | .powerOnReset => powerOnReset s

/-- The machine whose next step is the completion of the command word `v`: `v` accepted as R161 says, and the engine's
turn next (log 6). -/
def State.accepted (s : State) (v : Word) : State :=
  (s.withBlock (s.block.accept v)).withEvents (.engine :: s.events)

end Sys2Proof.Machine
end

