-- ==== Sys2Proof/Machine/Step.lean ====
section
/-! DEFINITION. One step: the next event, or the engine's turn when no event is left (70_reset_and_hazards.md R203). -/

namespace Sys2Proof.Machine

/-- The oldest event happens. With no event left the engine moves: a pending command completes, which is R203's fairness,
and an idle block stays as it is (60_exceptions.md R179). -/
def step (s : State) : Host.Outcome State Fault Refusal :=
  match s.events with
  | [] => engineTurn s
  | e :: rest => handleEvent e (s.withEvents rest)

/-- The machine whose very next step runs the command whose word is the low `nbits` bits of `w`. The block fetches
nothing (10_state.md R22), so this stands for the acceptance of that word (60_exceptions.md R161; log 6). -/
def State.withFetchWord (s : State) (nbits w : Nat) : State := s.accepted (tableWord nbits w)

end Sys2Proof.Machine
end

