-- ==== Sys2Proof/Machine/HostNotation.lean ====
section
/-! DEFINITION. The host notation of 30_encoding.md R67 and the pseudo-instructions of R68, as the events they put at the
block. The host's own labels, branches and arithmetic are outside the block (R67): a program that branches is, for the
block, the list of accesses it ends up making. The `latency` of a command is the number of polls that still find the
block busy, the LATENCY of 70_reset_and_hazards.md R203 (log 18). -/

namespace Sys2Proof.Machine.HostNotation

/-- A legal access at a block offset (20_memory.md R40, R45). -/
def accessAt (cfg : Config) (off : Nat) (kind : AccessKind) : Event :=
  .access { addr := cfg.base + off, width := .bits32, lanes := 0b1111, kind := kind }

/-- `put OFF, v` (R67). -/
def put (cfg : Config) (off : Nat) (v : Word) : List Event := [accessAt cfg off (.write v)]

/-- `get OFF` (R67); the word read goes to `hostReads`. -/
def get (cfg : Config) (off : Nat) : List Event := [accessAt cfg off .read]

/-- `cmd <command>` (R67). -/
def issue (cfg : Config) (i : Instr) : List Event := put cfg 0x00C (encode i)

/-- `wait` (R67): `latency` polls of STATUS find BUSY = 1, the command completes, one more poll finds BUSY = 0. -/
def wait (cfg : Config) (latency : Nat) : List Event :=
  List.replicate latency (accessAt cfg 0x008 .read) ++ [.engine] ++ get cfg 0x008

/-- `run <command>` (R68). -/
def run (cfg : Config) (latency : Nat) (i : Instr) : List Event := issue cfg i ++ wait cfg latency

/-- `li rd, imm32` (R68). -/
def li (cfg : Config) (latency : Nat) (rd : Reg) (imm : Word) : List Event :=
  put cfg 0x010 imm ++ run cfg latency (.ldi rd)

/-- `zero rd` (R68). -/
def zero (cfg : Config) (latency : Nat) (rd : Reg) : List Event := run cfg latency (.clr rd)

/-- The bus word of bytes 4k to 4k+3 of an array; a byte past its end is 0x00 (R68). -/
def arrayWord (bytes : List Byte) (k : Nat) : Word :=
  bytes.getD (4 * k + 3) 0 ++ bytes.getD (4 * k + 2) 0 ++ bytes.getD (4 * k + 1) 0 ++ bytes.getD (4 * k) 0

/-- ceil(L / 4), the bus words of `L` bytes (R68). -/
def wordsOf (len : Nat) : Nat := (len + 3) / 4

/-- `import rd, [b0, ..., bL-1]` (R68), for L ≤ NB. -/
def importBytes (cfg : Config) (latency : Nat) (rd : Reg) (bytes : List Byte) : List Event :=
  (List.range (wordsOf bytes.length)).flatMap (fun k => put cfg (bufOffset + 4 * k) (arrayWord bytes k)) ++
    put cfg 0x010 (BitVec.ofNat 32 bytes.length) ++ run cfg latency (.fromb rd)

/-- `export rs, L` (R68), for L ≤ NB; the words read go to `hostReads`. -/
def exportBytes (cfg : Config) (latency : Nat) (rs : Reg) (len : Nat) : List Event :=
  put cfg 0x010 (BitVec.ofNat 32 len) ++ run cfg latency (.tob rs) ++
    (List.range (wordsOf len)).flatMap (fun k => get cfg (bufOffset + 4 * k))

/-- The `len` bytes that the words w_0, w_1, … of an `export` give (R68). -/
def exportedBytes (words : List Word) (len : Nat) : List Byte :=
  (List.range len).map (fun j => (words.getD (j / 4) 0).extractLsb' (8 * (j % 4)) 8)

/-- `sqr rd, rs, rm` (R68). -/
def sqr (cfg : Config) (latency : Nat) (rd rs rm : Reg) : List Event := run cfg latency (.modmul rd rs rs rm)

/-- `rsapub rc, rmsg, re, rn` (R68). -/
def rsapub (cfg : Config) (latency : Nat) (rc rmsg re rn : Reg) : List Event :=
  run cfg latency (.modexp rc rmsg re rn)

/-- `ack` (R68): clears DONE and OVERRUN. -/
def ack (cfg : Config) : List Event := put cfg 0x008 0x00000042

end Sys2Proof.Machine.HostNotation
end

