-- ==== Sys2Proof/Safety.lean ====
section
/-! DEFINITION. What a safe run is, in the terms the statements use: the legal states of the block, the accesses that
keep the host's rules, and the end of a run. -/

namespace Sys2Proof.Machine

/-- The legal states of a block, in and out of runs: BUF in its canonical form within NB bytes (10_state.md R24);
STATUS.CMP is not 0b11 (R23); ERRCODE is 0 to 4 (R30); while busy, DONE = 0 and ERRCODE = 0 (20_memory.md R49) and the
pending command is the decoding of CMD (60_exceptions.md R161). -/
structure Block.Inv {cfg : Config} (b : Block cfg) : Prop where
  bufCanonical : b.buf.wf cfg.nb
  cmpLegal : b.cmp ≠ 0b11
  errcodeLegal : b.errcode.toNat ≤ 4
  busyStatus : b.busy = true → b.done = false ∧ b.errcode = 0
  busyCommand : b.busy = true → b.pending = some (decode b.cmd)

/-- The invariant of the machine. -/
def State.Inv (s : State) : Prop := s.block.Inv

/-- The access is a write to CMD, ARG or BUF (the targets of R48 and R162). -/
def BusAccess.writesCommandInput (a : BusAccess) (cfg : Config) : Bool :=
  match a.kind, windowReg cfg (a.addr - cfg.base) with
  | .write _, .cmd => true
  | .write _, .arg => true
  | .write _, .buf _ => true
  | _, _ => false

/-- The access writes CTRL with SRST = 1 (10_state.md R28). -/
def BusAccess.softReset (a : BusAccess) (cfg : Config) : Bool :=
  match a.kind, windowReg cfg (a.addr - cfg.base) with
  | .write v, .ctrl => v.getLsbD 1
  | _, _ => false

/-- The access reaches the block and the block performs it (20_memory.md R40, R45). -/
def BusAccess.performed (a : BusAccess) (cfg : Config) : Bool := inWindow cfg a.addr && a.legal cfg

/-- The access breaks the issue hazard or the argument hazard (70_reset_and_hazards.md R194, R195). -/
def BusAccess.breaksHazardRule (a : BusAccess) (s : State) : Bool := s.block.busy && a.writesCommandInput s.cfg

/-- The event is an operation of the host. The engine's turn and the platform's reset input (R190) are not. -/
def Event.ofHost : Event → Bool
  | .access _ => true
  | .engine => false
  | .powerOnReset => false

/-- The host has performed its last operation: no access is left, whatever else is still to come (R204). -/
def State.hostDone (s : State) : Bool := s.events.all fun e => !e.ofHost

/-- The end of a run (R204): the host has performed its last operation and no command is pending. -/
def State.finished (s : State) : Prop := s.hostDone = true ∧ s.block.pending = none

/-- The run from `s` ends after `k` steps, in `t`: the first state of the run that is finished (R204). What is observed of
the run is `t.observation`. -/
def State.endsAfter (s : State) (k : Nat) (t : State) : Prop :=
  Host.Core.run Sys2Proof.core k s = .next t ∧ t.finished ∧
    ∀ j < k, ∀ u : State, Host.Core.run Sys2Proof.core j s = .next u → ¬ u.finished

/-- The observation of R204: the state of 10_state.md R35, and what the host read along the way. -/
structure Observation (cfg : Config) where
  block : Block cfg
  hostReads : List Word
  deriving DecidableEq, Repr

/-- What is observed of a machine at the end of its run (R204). -/
def State.observation (s : State) : Observation s.cfg := ⟨s.block, s.hostReads.reverse⟩

/-- The fields of a command word (30_encoding.md R61), the reserved bits 0. -/
structure HasFields (w : Word) (op : BitVec 8) (rd rs1 rs2 rs3 : Reg) : Prop where
  opIs : opField w = op
  rdIs : rdField w = rd
  rs1Is : rs1Field w = rs1
  rs2Is : rs2Field w = rs2
  rs3Is : rs3Field w = rs3
  reservedIs : reservedField w = 0

/-- Two blocks, of configurations that may split WIDTH into words in different ways, hold the same values (00_scope.md R8):
the registers as numbers (10_state.md R21), and every other field of 10_state.md R35 alike. -/
structure Block.SameValues {c c' : Config} (b : Block c) (b' : Block c') : Prop where
  regs : ∀ j : Reg, (b.reg j).toNat = (b'.reg j).toNat
  buf : b.buf = b'.buf
  arg : b.arg = b'.arg
  cmd : b.cmd = b'.cmd
  ie : b.ie = b'.ie
  done : b.done = b'.done
  borrow : b.borrow = b'.borrow
  cmp : b.cmp = b'.cmp
  overrun : b.overrun = b'.overrun
  errcode : b.errcode = b'.errcode
  pending : b.pending = b'.pending

/-- The operand register the command writes when it succeeds (the RD column of 30_encoding.md R62). -/
def destination : Instr → Option Reg
  | .fromb rd => some rd
  | .tob _ => none
  | .ldi rd => some rd
  | .clr rd => some rd
  | .mov rd _ => some rd
  | .add rd _ _ => some rd
  | .sub rd _ _ => some rd
  | .cmp _ _ => none
  | .modmul rd _ _ _ => some rd
  | .modexp rd _ _ _ => some rd

/-- The operand registers the command reads (the RS columns of 30_encoding.md R62). -/
def sources : Instr → List Reg
  | .fromb _ => []
  | .tob rs1 => [rs1]
  | .ldi _ => []
  | .clr _ => []
  | .mov _ rs1 => [rs1]
  | .add _ rs1 rs2 => [rs1, rs2]
  | .sub _ rs1 rs2 => [rs1, rs2]
  | .cmp rs1 rs2 => [rs1, rs2]
  | .modmul _ rs1 rs2 rs3 => [rs1, rs2, rs3]
  | .modexp _ rs1 rs2 rs3 => [rs1, rs2, rs3]

/-- The legal command pending at the machine is `i` (10_state.md R32). -/
def State.running (s : State) (i : Instr) : Prop := s.block.pending = some (.instr i)

/-- The next step is the engine's: its turn comes first, or no event is left (R203). -/
def State.engineNext (s : State) : Bool :=
  match s.events with
  | [] => true
  | .engine :: _ => true
  | _ => false

/-- The machine after its next event is taken. -/
abbrev State.popEvent (s : State) : State := s.withEvents s.events.tail

/-- The next step performs this access: it is the oldest event, it reaches the window and it is legal (R40, R45). -/
def State.nextAccess (s : State) (a : BusAccess) : Prop :=
  s.events.head? = some (.access a) ∧ a.performed s.cfg = true

/-- The next step is the host's 32-bit write of `v` at block offset `off`: `MemWrite(off, 4, v)` of R44, performed. -/
def State.nextWrite (s : State) (off : Nat) (v : Word) : Prop :=
  s.nextAccess { addr := s.cfg.base + off, width := .bits32, lanes := 0b1111, kind := .write v }

/-- The next step is the host's 32-bit read at block offset `off`: `MemRead(off, 4)` of R43, performed. -/
def State.nextRead (s : State) (off : Nat) : Prop :=
  s.nextAccess { addr := s.cfg.base + off, width := .bits32, lanes := 0b1111, kind := .read }

/-- The next step is a reset: power-on, or a performed SRST write (R190). -/
def State.resetNext (s : State) : Bool :=
  match s.events with
  | .powerOnReset :: _ => true
  | .access a :: _ => a.performed s.cfg && a.softReset s.cfg
  | _ => false

end Sys2Proof.Machine
end

