-- ==== Sys2Proof/Certificates/Slice0/Obligations.lean ====
section
/-! DEFINITION. What is stated about the model, for the provers. Each docstring names the rules of spec/ it formalises. -/

open Sys2Proof Sys2Proof.Machine

/-! ### Encoding (30_encoding.md) -/

/-- R61, R62, R66: decoding the word of a command gives the command back, with every operand. -/
def Obligations.DecodeOfEncodeIsTheCommand : Prop :=
  ∀ i : Instr, decode (encode i) = .instr i

/-- R61, R62: a command has one word only. -/
def Obligations.EncodeOfDecodeIsTheWord : Prop :=
  ∀ (w : Word) (i : Instr), decode w = .instr i → encode i = w

/-- R62, R64: a word that a (match, mask) row matches decodes to that row's command, and a word that no row matches is
Illegal. -/
def Obligations.DecoderAcceptsExactlyTheTableRows : Prop :=
  ∀ w : Word,
    (∀ r ∈ opcodeRows, r.matchesWord w = true → ∃ i, decode w = .instr i ∧ i.mnemonic = r.mnemonic) ∧
    (legalWord w = false → decode w = .illegal)

/-- R62: "No two rows match one word". -/
def Obligations.NoTwoTableRowsMatchOneWord : Prop :=
  ∀ (w : Word) (r r' : OpcodeRow), r ∈ opcodeRows → r' ∈ opcodeRows →
    r.matchesWord w = true → r'.matchesWord w = true → r = r'

/-- R66: the encoding column, as it is written there. -/
def Obligations.EncodingsAreThoseOfTheSyntaxTable : Prop :=
  ∀ rd rs1 rs2 rs3 : Reg,
    let d : Word := BitVec.ofNat 32 rd.val <<< 8
    let a : Word := BitVec.ofNat 32 rs1.val <<< 12
    let b : Word := BitVec.ofNat 32 rs2.val <<< 16
    let c : Word := BitVec.ofNat 32 rs3.val <<< 20
    encode (.fromb rd) = 0x00000001 ||| d ∧
    encode (.tob rs1) = 0x00000002 ||| a ∧
    encode (.ldi rd) = 0x00000003 ||| d ∧
    encode (.clr rd) = 0x00000004 ||| d ∧
    encode (.mov rd rs1) = 0x00000005 ||| d ||| a ∧
    encode (.add rd rs1 rs2) = 0x00000010 ||| d ||| a ||| b ∧
    encode (.sub rd rs1 rs2) = 0x00000011 ||| d ||| a ||| b ∧
    encode (.cmp rs1 rs2) = 0x00000020 ||| a ||| b ∧
    encode (.modmul rd rs1 rs2 rs3) = 0x00000030 ||| d ||| a ||| b ||| c ∧
    encode (.modexp rd rs1 rs2 rs3) = 0x00000040 ||| d ||| a ||| b ||| c

/-- R66 and 95_test_vectors.md: words written out from the encodings decode to their commands, and words of R64 do not. -/
def Obligations.SampleWordsDecode : Prop :=
  decode 0x00000101 = .instr (.fromb 1) ∧
  decode 0x00002002 = .instr (.tob 2) ∧
  decode 0x00021310 = .instr (.add 3 1 2) ∧
  decode 0x00014020 = .instr (.cmp 4 1) ∧
  decode 0x00321430 = .instr (.modmul 4 1 2 3) ∧
  decode 0x00210340 = .instr (.modexp 3 0 1 2) ∧
  decode 0x00000000 = .illegal ∧
  decode 0x01000010 = .illegal ∧
  decode 0x00300010 = .illegal

/-! ### Configurations and reset -/

/-- R7 and R40: the parameters of a configuration are exactly those that meet the constraints; all others are refused.
Refusing those that break a constraint of R7 is R7's; refusing those that break R40's constraints on the base and the window
is the model's choice (log 1). -/
def Obligations.ConfigurationsAreExactlyTheLegalParameters : Prop :=
  ∀ p : Params,
    (∃ c, Config.ofParams? p = some c ∧ c.params = p) ↔
      (p.w ∈ [8, 16, 32, 64] ∧ 1 ≤ p.n ∧ p.n ≤ 65535 ∧ 32 ∣ p.n * p.w ∧ 32 ≤ p.n * p.w ∧
        4096 ∣ p.base ∧ 4096 ∣ p.window ∧ 0x400 + p.n * p.w / 8 ≤ p.window)

/-- R34, R191: a reset, from either source and in any state, busy or not, puts every piece of state at its reset value,
abandons the pending command and leaves PARAM and the later events alone. -/
def Obligations.ResetPutsEveryFieldAtItsResetValue : Prop :=
  ∀ s : State, s.resetNext = true →
    ∃ b : Block s.cfg, step s = .next (s.popEvent.withBlock b) ∧
      (∀ i : Reg, b.reg i = 0) ∧ (∀ k, b.buf.read k = 0) ∧ b.arg = 0 ∧ b.cmd = 0 ∧ b.ie = false ∧
      b.statusWord = 0 ∧ b.busy = false ∧ b.done = false ∧ b.err = false ∧ b.borrow = false ∧ b.cmp = 0b00 ∧
      b.overrun = false ∧ b.errcode = 0 ∧ b.pending = none ∧ b.irq = false ∧
      b.memRead 0x000 = s.block.memRead 0x000

/-- R6, R27, R34: the machine after power-on in the default configuration, whose N and W are those of R6 (its base and
window are the model's choice, log 2): every field at its reset value, and PARAM reads 0x0F200040. -/
def Obligations.ResetStateIsTheSpecs : Prop :=
  State.reset.cfg.n = 64 ∧ State.reset.cfg.w = 32 ∧ State.reset.block = Block.reset State.reset.cfg ∧
  State.reset.block.regs = Vector.replicate 16 0 ∧ State.reset.block.buf = [] ∧
  State.reset.block.arg = 0 ∧ State.reset.block.cmd = 0 ∧ State.reset.block.statusWord = 0 ∧
  State.reset.block.ctrlWord = 0 ∧ State.reset.block.pending = none ∧ State.reset.block.irq = false ∧
  State.reset.block.memRead 0x000 = 0x0F200040

/-! ### The step and the command life cycle (60_exceptions.md) -/

/-- R160, R161: at the engine's turn the step is `exec` of the pending command, on the state without that turn; and the
step after a word is placed by `withFetchWord` is `exec` of the command it decodes to, on the state that has accepted it.
`withFetchWord` is the model's choice (log 6): the block fetches nothing, and this stands for an acceptance; at a busy block,
where R162 drops a host's write, it says nothing of the hardware. -/
def Obligations.StepRunsTheDecodedCommand : Prop :=
  (∀ (s : State) (i : Instr), s.engineNext = true → s.running i → step s = exec i s.popEvent) ∧
  (∀ (s : State) (w : Word) (i : Instr), decode w = .instr i →
    step (s.withFetchWord 32 w.toNat) = exec i (s.withBlock (s.block.accept w)))

/-- R64: a word that no row of R62 matches is accepted all the same, and sets CMD; it completes with code 1 and changes no
register, no byte of BUF and no flag. -/
def Obligations.IllegalWordCompletesWithIllegalCmd : Prop :=
  (∀ (s : State) (v : Word), legalWord v = false → s.nextWrite 0x00C v → s.block.pending = none →
    step s = .next (s.popEvent.withBlock
      { s.block with cmd := v, pending := some .illegal, done := false, errcode := 0 })) ∧
  (∀ s : State, s.engineNext = true → s.block.pending = some .illegal →
    step s = .next (s.popEvent.withBlock { s.block with errcode := 1, pending := none, done := true }))

/-- R160: the completion step is enabled exactly when a command is pending; at an idle block the engine changes nothing
(that such a turn is a step at all is the model's choice, log 5). -/
def Obligations.EngineAtAnIdleBlockChangesNothing : Prop :=
  ∀ s : State, s.engineNext = true → s.block.pending = none → step s = .next s.popEvent

/-- R161: a CMD write while idle accepts the word, legal or not; and while a command is pending, in every legal state,
STATUS reads BUSY = 1, DONE = 0, ERR = 0 and ERRCODE = 0. -/
def Obligations.IdleCmdWriteAcceptsTheWord : Prop :=
  (∀ (s : State) (v : Word), s.nextWrite 0x00C v → s.block.pending = none →
    step s = .next (s.popEvent.withBlock
      { s.block with cmd := v, pending := some (decode v), done := false, errcode := 0 })) ∧
  (∀ s : State, s.Inv → s.block.pending ≠ none →
    s.block.statusWord.getLsbD 0 = true ∧ s.block.statusWord.getLsbD 1 = false ∧
    s.block.statusWord.getLsbD 2 = false ∧ s.block.statusWord.extractLsb' 8 4 = 0)

/-- R162: a CMD write while busy is dropped and sets OVERRUN. -/
def Obligations.BusyCmdWriteIsDropped : Prop :=
  ∀ (s : State) (v : Word), s.nextWrite 0x00C v → s.block.pending ≠ none →
    step s = .next (s.popEvent.withBlock { s.block with overrun := true })

/-- R160, R161: a command word written while idle and then the engine's turn: the machine is where `exec` of the decoded
command leaves the accepting state. -/
def Obligations.AcceptanceAndCompletionRunTheWord : Prop :=
  ∀ (s : State) (v : Word) (i : Instr) (rest : List Event),
    s.block.pending = none → decode v = .instr i →
    s.events = HostNotation.put s.cfg 0x00C v ++ .engine :: rest →
    Host.Core.run Sys2Proof.core 2 s = exec i ((s.withBlock (s.block.accept v)).withEvents rest)

/-- R48: while busy, writes to ARG, BUF and CMD are dropped and set OVERRUN, writes to CTRL and STATUS take effect, and
no write but a reset changes an input of the running command; PARAM and reserved offsets ignore writes at any time. -/
def Obligations.WritesWhileBusyCannotReachTheCommand : Prop :=
  (∀ (s : State) (off : Nat) (v : Word), s.nextWrite off v → s.block.pending ≠ none →
    ((off = 0x00C ∨ off = 0x010 ∨ (0x400 ≤ off ∧ off < 0x400 + s.cfg.nb)) →
      step s = .next (s.popEvent.withBlock { s.block with overrun := true })) ∧
    (off = 0x004 → v.getLsbD 1 = false → step s = .next (s.popEvent.withBlock { s.block with ie := v.getLsbD 0 })) ∧
    (off = 0x004 → v.getLsbD 1 = true → step s = .next (s.popEvent.withBlock (Block.reset s.cfg))) ∧
    (off = 0x008 → step s = .next (s.popEvent.withBlock
      { s.block with done := s.block.done && !v.getLsbD 1, overrun := s.block.overrun && !v.getLsbD 6 })) ∧
    (s.resetNext = false → ∃ b : Block s.cfg, step s = .next (s.popEvent.withBlock b) ∧ b.regs = s.block.regs ∧
      b.buf = s.block.buf ∧ b.arg = s.block.arg ∧ b.cmd = s.block.cmd ∧ b.pending = s.block.pending)) ∧
  (∀ (s : State) (off : Nat) (v : Word), s.nextWrite off v →
    (off = 0x000 ∨ (0x014 ≤ off ∧ off < 0x400) ∨ 0x400 + s.cfg.nb ≤ off) → step s = .next s.popEvent)

/-! ### The register window (20_memory.md, 10_state.md) -/

/-- R44: `MemWrite(off, 4, v)`, offset by offset. -/
def Obligations.MemWriteActsByOffset : Prop :=
  ∀ (s : State) (off : Nat) (v : Word), s.nextWrite off v →
    (off = 0x000 → step s = .next s.popEvent) ∧
    (off = 0x004 → v.getLsbD 1 = true → step s = .next (s.popEvent.withBlock (Block.reset s.cfg))) ∧
    (off = 0x004 → v.getLsbD 1 = false → step s = .next (s.popEvent.withBlock { s.block with ie := v.getLsbD 0 })) ∧
    (off = 0x008 → step s = .next (s.popEvent.withBlock
      { s.block with done := (if v.getLsbD 1 then false else s.block.done)
                     overrun := (if v.getLsbD 6 then false else s.block.overrun) })) ∧
    (off = 0x00C → s.block.pending = none → step s = .next (s.popEvent.withBlock
      { s.block with cmd := v, pending := some (decode v), done := false, errcode := 0 })) ∧
    (off = 0x010 → s.block.pending = none → step s = .next (s.popEvent.withBlock { s.block with arg := v })) ∧
    (∀ k, k < s.cfg.nb / 4 → off = 0x400 + 4 * k → s.block.pending = none →
      ∃ m : Memory, step s = .next (s.popEvent.withBlock { s.block with buf := m }) ∧
        (∀ i, i < 4 → m.read (4 * k + i) = v.extractLsb' (8 * i) 8) ∧
        (∀ j, j < 4 * k ∨ 4 * k + 4 ≤ j → m.read j = s.block.buf.read j)) ∧
    ((off = 0x00C ∨ off = 0x010 ∨ ∃ k, k < s.cfg.nb / 4 ∧ off = 0x400 + 4 * k) → s.block.pending ≠ none →
      step s = .next (s.popEvent.withBlock { s.block with overrun := true })) ∧
    (off ≠ 0x000 → off ≠ 0x004 → off ≠ 0x008 → off ≠ 0x00C → off ≠ 0x010 →
      (∀ k, k < s.cfg.nb / 4 → off ≠ 0x400 + 4 * k) → step s = .next s.popEvent)

/-- R43: a read returns the current value of the register at its offset (R41), is logged as what the host read, and
changes nothing else. -/
def Obligations.MemReadReturnsTheRegisterAndChangesNothing : Prop :=
  ∀ (s : State) (off : Nat), s.nextRead off →
    ∃ v : Word, step s = .next (s.popEvent.logRead v) ∧
      (off = 0x000 → v = paramWord s.cfg) ∧
      (off = 0x004 → v = s.block.ctrlWord) ∧
      (off = 0x008 → v = s.block.statusWord) ∧
      (off = 0x00C → v = s.block.cmd) ∧
      (off = 0x010 → v = s.block.arg) ∧
      (∀ k, k < s.cfg.nb / 4 → off = 0x400 + 4 * k → ∀ i, i < 4 →
        v.extractLsb' (8 * i) 8 = s.block.buf.read (4 * k + i)) ∧
      ((0x014 ≤ off ∧ off < 0x400) ∨ 0x400 + s.cfg.nb ≤ off → v = 0)

/-- R42: an access to a reserved offset is legal, a read of it returns 0 and a write has no effect, on STATUS neither. -/
def Obligations.ReservedOffsetsReadZeroAndIgnoreWrites : Prop :=
  ∀ (s : State) (off : Nat), (0x014 ≤ off ∧ off < 0x400) ∨ 0x400 + s.cfg.nb ≤ off →
    (s.nextRead off → step s = .next (s.popEvent.logRead 0)) ∧
    (∀ v : Word, s.nextWrite off v → step s = .next s.popEvent)

/-- R27, R28, R29, R30: the fields of PARAM, CTRL and STATUS. -/
def Obligations.ControlRegisterFields : Prop :=
  ∀ s : State,
    ((paramWord s.cfg).extractLsb' 0 16).toNat = s.cfg.n ∧ ((paramWord s.cfg).extractLsb' 16 8).toNat = s.cfg.w ∧
    (paramWord s.cfg).extractLsb' 24 4 = 0xF ∧ (paramWord s.cfg).extractLsb' 28 4 = 0 ∧
    s.block.ctrlWord.getLsbD 0 = s.block.ie ∧ s.block.ctrlWord.extractLsb' 1 31 = 0 ∧
    s.block.statusWord.getLsbD 0 = s.block.pending.isSome ∧ s.block.statusWord.getLsbD 1 = s.block.done ∧
    s.block.statusWord.getLsbD 2 = decide (s.block.errcode ≠ 0) ∧ s.block.statusWord.getLsbD 3 = s.block.borrow ∧
    s.block.statusWord.extractLsb' 4 2 = s.block.cmp ∧ s.block.statusWord.getLsbD 6 = s.block.overrun ∧
    s.block.statusWord.getLsbD 7 = false ∧ s.block.statusWord.extractLsb' 8 4 = s.block.errcode ∧
    s.block.statusWord.extractLsb' 12 20 = 0

/-- R46: byte BUF[4k + i] is bits 8i+7:8i of bus word k, for reads and for writes; a word written reads back. -/
def Obligations.BufWindowLanesAreLittleEndian : Prop :=
  ∀ (cfg : Config) (b : Block cfg) (k : Nat), k < cfg.nb / 4 →
    b.memRead (0x400 + 4 * k) =
      b.buf.read (4 * k + 3) ++ b.buf.read (4 * k + 2) ++ b.buf.read (4 * k + 1) ++ b.buf.read (4 * k) ∧
    ∀ v : Word, b.pending = none →
      (b.memWrite (0x400 + 4 * k) v).memRead (0x400 + 4 * k) = v ∧
      (∀ i, i < 4 → (b.memWrite (0x400 + 4 * k) v).buf.read (4 * k + i) = v.extractLsb' (8 * i) 8) ∧
      (∀ j, j < 4 * k ∨ 4 * k + 4 ≤ j → (b.memWrite (0x400 + 4 * k) v).buf.read j = b.buf.read j)

/-- R45: of the accesses that reach the window, the aligned 32-bit ones with all lanes are performed, and every other
one is refused, so that it changes no state. -/
def Obligations.OnlyAlignedFullWordAccessesArePerformed : Prop :=
  ∀ (s : State) (a : BusAccess), s.events.head? = some (.access a) →
    s.cfg.base ≤ a.addr → a.addr < s.cfg.base + s.cfg.window →
    ((a.width = .bits32 ∧ a.lanes = 0b1111 ∧ (a.addr - s.cfg.base) % 4 = 0) → ∃ t, step s = .next t) ∧
    (¬ (a.width = .bits32 ∧ a.lanes = 0b1111 ∧ (a.addr - s.cfg.base) % 4 = 0) →
      step s = .refused .busProtocolViolation)

/-- R40: an access reaches the block only inside its window. That the model then stops with a fault is its own choice
(log 8). -/
def Obligations.AccessOutsideTheWindowFaults : Prop :=
  ∀ (s : State) (a : BusAccess), s.events.head? = some (.access a) →
    (a.addr < s.cfg.base ∨ s.cfg.base + s.cfg.window ≤ a.addr) → step s = .fault .addressOutsideWindow

/-- R20: the host cannot address the operand registers. No read depends on them, and no write changes them or lets them
change anything else, but a reset, which clears them. -/
def Obligations.HostAccessesNeitherSeeNorChangeRegisters : Prop :=
  ∀ (cfg : Config) (b : Block cfg) (regs : Vector (BitVec cfg.width) 16) (off : Nat),
    Block.memRead { b with regs := regs } off = b.memRead off ∧
    ∀ v : Word,
      (¬ (off = 0x004 ∧ v.getLsbD 1 = true) →
        Block.memWrite { b with regs := regs } off v = { b.memWrite off v with regs := regs } ∧
        (b.memWrite off v).regs = b.regs) ∧
      (off = 0x004 ∧ v.getLsbD 1 = true → Block.memWrite { b with regs := regs } off v = Block.reset cfg)

/-! ### Conversion, copy and comparison (40_conversion.md) -/

/-- R81: FROMB reads ARG bytes of BUF, the most significant first, or fails with INVALID_LENGTH. -/
def Obligations.FrombReadsTheBigEndianValue : Prop :=
  ∀ (s : State) (rd : Reg),
    HasFields (encode (.fromb rd)) 0x01 rd 0 0 0 ∧
    (s.cfg.nb < s.block.arg.toNat →
      exec (.fromb rd) s = .next (s.withBlock { s.block with errcode := 2, pending := none, done := true })) ∧
    (s.block.arg.toNat ≤ s.cfg.nb →
      ∃ v : BitVec s.cfg.width,
        v.toNat = ∑ k ∈ Finset.range s.block.arg.toNat,
          (s.block.buf.read k).toNat * 256 ^ (s.block.arg.toNat - 1 - k) ∧
        exec (.fromb rd) s = .next (s.withBlock
          { s.block with regs := s.block.regs.set rd v, errcode := 0, pending := none, done := true }))

/-- R82: TOB writes ARG bytes of BUF, the most significant first, truncating or zero-padding the value, or fails with
INVALID_LENGTH. -/
def Obligations.TobWritesTheBigEndianBytes : Prop :=
  ∀ (s : State) (rs1 : Reg),
    HasFields (encode (.tob rs1)) 0x02 0 rs1 0 0 ∧
    (s.cfg.nb < s.block.arg.toNat →
      exec (.tob rs1) s = .next (s.withBlock { s.block with errcode := 2, pending := none, done := true })) ∧
    (s.block.arg.toNat ≤ s.cfg.nb →
      ∃ m : Memory,
        (∀ k, k < s.block.arg.toNat →
          (m.read k).toNat = (s.block.reg rs1).toNat / 2 ^ (8 * (s.block.arg.toNat - 1 - k)) % 256) ∧
        (∀ k, s.block.arg.toNat ≤ k → m.read k = s.block.buf.read k) ∧
        exec (.tob rs1) s = .next (s.withBlock
          { s.block with buf := m, errcode := 0, pending := none, done := true }))

/-- R83: LDI writes ARG, zero-extended, and no bit of ARG is lost. -/
def Obligations.LdiWritesTheArgument : Prop :=
  ∀ (s : State) (rd : Reg),
    HasFields (encode (.ldi rd)) 0x03 rd 0 0 0 ∧
    ∃ v : BitVec s.cfg.width, v.toNat = s.block.arg.toNat ∧
      exec (.ldi rd) s = .next (s.withBlock
        { s.block with regs := s.block.regs.set rd v, errcode := 0, pending := none, done := true })

/-- R84: CLR writes zero. -/
def Obligations.ClrWritesZero : Prop :=
  ∀ (s : State) (rd : Reg),
    HasFields (encode (.clr rd)) 0x04 rd 0 0 0 ∧
    exec (.clr rd) s = .next (s.withBlock
      { s.block with regs := s.block.regs.set rd 0, errcode := 0, pending := none, done := true })

/-- R86: MOV copies one register to another; with rd = rs1 the register keeps its value. -/
def Obligations.MovCopiesTheRegister : Prop :=
  ∀ (s : State) (rd rs1 : Reg),
    HasFields (encode (.mov rd rs1)) 0x05 rd rs1 0 0 ∧
    exec (.mov rd rs1) s = .next (s.withBlock
      { s.block with regs := s.block.regs.set rd (s.block.reg rs1), errcode := 0, pending := none, done := true })

/-- R85: CMP's word-serial comparison gives the order of the two unsigned values. -/
def Obligations.CmpWritesTheUnsignedOrder : Prop :=
  ∀ (s : State) (rs1 rs2 : Reg),
    HasFields (encode (.cmp rs1 rs2)) 0x20 0 rs1 rs2 0 ∧
    exec (.cmp rs1 rs2) s = .next (s.withBlock
      { s.block with
        cmp := (if (s.block.reg rs1).toNat < (s.block.reg rs2).toNat then 0b01
                else if s.block.reg rs1 = s.block.reg rs2 then 0b00 else 0b10)
        errcode := 0, pending := none, done := true })

/-! ### Addition and subtraction (41_add_sub.md) -/

/-- R100: the word-serial adder gives (a + b) mod 2^WIDTH, for every N and W; no flag is written. -/
def Obligations.AddWritesTheSumModuloTheWidth : Prop :=
  ∀ (s : State) (rd rs1 rs2 : Reg),
    HasFields (encode (.add rd rs1 rs2)) 0x10 rd rs1 rs2 0 ∧
    ∃ r : BitVec s.cfg.width,
      r.toNat = ((s.block.reg rs1).toNat + (s.block.reg rs2).toNat) % 2 ^ s.cfg.width ∧
      exec (.add rd rs1 rs2) s = .next (s.withBlock
        { s.block with regs := s.block.regs.set rd r, errcode := 0, pending := none, done := true })

/-- R101: the word-serial subtractor gives (a - b) mod 2^WIDTH and BORROW = (a < b), for every N and W. -/
def Obligations.SubWritesTheDifferenceAndTheBorrow : Prop :=
  ∀ (s : State) (rd rs1 rs2 : Reg),
    HasFields (encode (.sub rd rs1 rs2)) 0x11 rd rs1 rs2 0 ∧
    ∃ r : BitVec s.cfg.width,
      (r.toNat : ℤ) = ((s.block.reg rs1).toNat - (s.block.reg rs2).toNat : ℤ) % 2 ^ s.cfg.width ∧
      exec (.sub rd rs1 rs2) s = .next (s.withBlock
        { s.block with
          regs := s.block.regs.set rd r
          borrow := decide ((s.block.reg rs1).toNat < (s.block.reg rs2).toNat)
          errcode := 0, pending := none, done := true })

/-- R103: the laws of the adder and the subtractor, the units whose results ADD, SUB and CMP write. -/
def Obligations.AdderAndSubtractorLaws : Prop :=
  (∀ (s : State) (rd rs1 rs2 : Reg), ∃ t u v : State,
    exec (.add rd rs1 rs2) s = .next t ∧ exec (.sub rd rs1 rs2) s = .next u ∧ exec (.cmp rs1 rs2) s = .next v ∧
    t = s.withBlock (s.block.setReg rd (bigintAdder s.cfg (s.block.reg rs1) (s.block.reg rs2))).completeOk ∧
    u = s.withBlock ((s.block.setReg rd (bigintSubtractor s.cfg (s.block.reg rs1) (s.block.reg rs2)).1).setBorrow
      (bigintSubtractor s.cfg (s.block.reg rs1) (s.block.reg rs2)).2).completeOk ∧
    v = s.withBlock (s.block.setCmp (bigintComparator s.cfg (s.block.reg rs1) (s.block.reg rs2))).completeOk) ∧
  ∀ (cfg : Config) (a b c : BitVec cfg.width),
    bigintAdder cfg a b = bigintAdder cfg b a ∧
    bigintAdder cfg (bigintAdder cfg a b) c = bigintAdder cfg a (bigintAdder cfg b c) ∧
    (bigintComparator cfg a b ≠ cmpLess →
      (bigintSubtractor cfg a b).2 = false ∧ bigintAdder cfg (bigintSubtractor cfg a b).1 b = a) ∧
    bigintAdder cfg (bigintSubtractor cfg a b).1 b = a

/-- R8, for the three word-serial units: two configurations of one WIDTH, whatever their W, give the same sums, differences,
borrows and orders. -/
def Obligations.WordSizeDoesNotChangeTheWordSerialUnits : Prop :=
  ∀ (c c' : Config), c.width = c'.width →
    ∀ (a b : BitVec c.width) (a' b' : BitVec c'.width), a.toNat = a'.toNat → b.toNat = b'.toNat →
      (bigintAdder c a b).toNat = (bigintAdder c' a' b').toNat ∧
      (bigintSubtractor c a b).1.toNat = (bigintSubtractor c' a' b').1.toNat ∧
      (bigintSubtractor c a b).2 = (bigintSubtractor c' a' b').2 ∧
      bigintComparator c a b = bigintComparator c' a' b'

/-! ### Modular arithmetic (42_modmul.md, 43_modexp.md) -/

/-- R120: under its precondition an iteration of MulRed never loses a bit of the WIDTH+1-bit accumulator, each of its two
reductions subtracts at most once, and it ends below the modulus. -/
def Obligations.MulRedAccumulatorNeverOverflows : Prop :=
  ∀ (width a m t : Nat) (bitSet : Bool), 0 < m → m < 2 ^ width → a ≤ m → t < m →
    t + t < 2 ^ (width + 1) ∧
    reduceMod m (t + t) + a < 2 ^ (width + 1) ∧
    reduceMod m (t + t) = trialSubtract m 1 (t + t) ∧
    reduceMod m (reduceMod m (t + t) + a) = trialSubtract m 1 (reduceMod m (t + t) + a) ∧
    mulRedStep a m bitSet t < m

/-- R121: MulRed gives (a * b) mod m. After the iteration for bit i its accumulator is (a * (b div 2^i)) mod m: the
remaining iterations from that value give the same result, and the iteration for bit i takes it there from the value of
bit i + 1, every intermediate value below 2m ≤ 2^(WIDTH+1). -/
def Obligations.MulRedComputesTheExactProduct : Prop :=
  ∀ (width a b m : Nat), 0 < m → m < 2 ^ width → a ≤ m → b < 2 ^ width →
    mulRed width a b m = a * b % m ∧ 2 * m ≤ 2 ^ (width + 1) ∧
    (∀ i, i ≤ width → mulRedLoop a (b / 2 ^ i) m (width - i) 0 = a * (b / 2 ^ i) % m ∧
      mulRed width a b m = mulRedLoop a b m i (a * (b / 2 ^ i) % m)) ∧
    (∀ i, i < width →
      let t := a * (b / 2 ^ (i + 1)) % m
      t + t < 2 * m ∧ reduceMod m (t + t) + a < 2 * m ∧ mulRedStep a m (b.testBit i) t = a * (b / 2 ^ i) % m)

/-- R142: ExpMod gives base^e mod m for every m ≥ 1, with 0^0 = 1, and its accumulator after the iteration for bit i is
base^(e div 2^i) mod m. -/
def Obligations.ExpModComputesTheExactPower : Prop :=
  ∀ (width base e m : Nat), 32 ≤ width → 1 ≤ m → m < 2 ^ width → base < 2 ^ width → e < 2 ^ width →
    expMod width base e m = base ^ e % m ∧ expMod width base e m < m ∧
    ∀ i, i < width → expModLoop width base (e / 2 ^ i) m (width - i) 1 = base ^ (e / 2 ^ i) % m ∧
      expMod width base e m = expModLoop width base e m i (base ^ (e / 2 ^ i) % m)

/-- R122: MODMUL gives the exact product modulo m; DIVIDE_BY_ZERO when m = 0, and OPERAND_RANGE only when it is not. -/
def Obligations.ModmulWritesTheExactProduct : Prop :=
  ∀ (s : State) (rd rs1 rs2 rs3 : Reg),
    let a := (s.block.reg rs1).toNat
    let b := (s.block.reg rs2).toNat
    let m := (s.block.reg rs3).toNat
    HasFields (encode (.modmul rd rs1 rs2 rs3)) 0x30 rd rs1 rs2 rs3 ∧
    (m = 0 → exec (.modmul rd rs1 rs2 rs3) s =
      .next (s.withBlock { s.block with errcode := 3, pending := none, done := true })) ∧
    (m ≠ 0 → (m ≤ a ∨ m ≤ b) → exec (.modmul rd rs1 rs2 rs3) s =
      .next (s.withBlock { s.block with errcode := 4, pending := none, done := true })) ∧
    (m ≠ 0 → a < m → b < m →
      ∃ r : BitVec s.cfg.width, r.toNat = a * b % m ∧
        exec (.modmul rd rs1 rs2 rs3) s = .next (s.withBlock
          { s.block with regs := s.block.regs.set rd r, errcode := 0, pending := none, done := true }))

/-- R141, R142: MODEXP gives base^e mod m for any base and exponent; DIVIDE_BY_ZERO when m = 0. -/
def Obligations.ModexpWritesTheExactPower : Prop :=
  ∀ (s : State) (rd rs1 rs2 rs3 : Reg),
    let base := (s.block.reg rs1).toNat
    let e := (s.block.reg rs2).toNat
    let m := (s.block.reg rs3).toNat
    HasFields (encode (.modexp rd rs1 rs2 rs3)) 0x40 rd rs1 rs2 rs3 ∧
    (m = 0 → exec (.modexp rd rs1 rs2 rs3) s =
      .next (s.withBlock { s.block with errcode := 3, pending := none, done := true })) ∧
    (m ≠ 0 →
      ∃ r : BitVec s.cfg.width, r.toNat = base ^ e % m ∧
        exec (.modexp rd rs1 rs2 rs3) s = .next (s.withBlock
          { s.block with regs := s.block.regs.set rd r, errcode := 0, pending := none, done := true }))

/-! ### Frames, errors and the properties of the commands -/

/-- R10, R23, R24, R163: what FROMB, LDI, CLR, MOV, ADD, MODMUL and MODEXP leave unchanged: every operand register but
rd, every byte of BUF, both flags, ARG, CMD, IE, OVERRUN, the configuration, the events and the host's log. -/
def Obligations.RegisterCommandsFrame : Prop :=
  ∀ (s : State) (i : Instr) (rd : Reg),
    (i = .fromb rd ∨ i = .ldi rd ∨ i = .clr rd ∨ (∃ rs1, i = .mov rd rs1) ∨ (∃ rs1 rs2, i = .add rd rs1 rs2) ∨
      (∃ rs1 rs2 rs3, i = .modmul rd rs1 rs2 rs3) ∨ (∃ rs1 rs2 rs3, i = .modexp rd rs1 rs2 rs3)) →
    ∃ b : Block s.cfg, exec i s = .next (s.withBlock b) ∧
      (∀ j : Reg, j ≠ rd → b.reg j = s.block.reg j) ∧ (∀ k, b.buf.read k = s.block.buf.read k) ∧
      b.borrow = s.block.borrow ∧ b.cmp = s.block.cmp ∧ b.arg = s.block.arg ∧ b.cmd = s.block.cmd ∧
      b.ie = s.block.ie ∧ b.overrun = s.block.overrun

/-- R23, R85, R101: what SUB and CMP leave unchanged: SUB every register but rd and STATUS.CMP, CMP every register and
BORROW, and both every byte of BUF, ARG, CMD, IE and OVERRUN. -/
def Obligations.FlagCommandsFrame : Prop :=
  ∀ (s : State) (rd rs1 rs2 : Reg),
    (∃ b : Block s.cfg, exec (.sub rd rs1 rs2) s = .next (s.withBlock b) ∧
      (∀ j : Reg, j ≠ rd → b.reg j = s.block.reg j) ∧ (∀ k, b.buf.read k = s.block.buf.read k) ∧
      b.cmp = s.block.cmp ∧ b.arg = s.block.arg ∧ b.cmd = s.block.cmd ∧ b.ie = s.block.ie ∧
      b.overrun = s.block.overrun) ∧
    (∃ b : Block s.cfg, exec (.cmp rs1 rs2) s = .next (s.withBlock b) ∧
      (∀ j : Reg, b.reg j = s.block.reg j) ∧ (∀ k, b.buf.read k = s.block.buf.read k) ∧
      b.borrow = s.block.borrow ∧ b.arg = s.block.arg ∧ b.cmd = s.block.cmd ∧ b.ie = s.block.ie ∧
      b.overrun = s.block.overrun)

/-- R82: what TOB leaves unchanged: every register, both flags, ARG, CMD, IE, OVERRUN, and every byte of BUF outside
BUF[0..ARG-1]; with ARG above NB it stores nothing, and every byte of BUF is unchanged. -/
def Obligations.TobFrame : Prop :=
  ∀ (s : State) (rs1 : Reg),
    ∃ b : Block s.cfg, exec (.tob rs1) s = .next (s.withBlock b) ∧
      (∀ j : Reg, b.reg j = s.block.reg j) ∧
      (∀ k, s.block.arg.toNat ≤ k ∨ s.cfg.nb < s.block.arg.toNat → b.buf.read k = s.block.buf.read k) ∧
      b.borrow = s.block.borrow ∧ b.cmp = s.block.cmp ∧ b.arg = s.block.arg ∧ b.cmd = s.block.cmd ∧
      b.ie = s.block.ie ∧ b.overrun = s.block.overrun

/-- R160: every command completes in one step, whatever the state: DONE = 1 and nothing is pending. -/
def Obligations.EveryCommandCompletesInOneStep : Prop :=
  ∀ (i : Instr) (s : State), ∃ b : Block s.cfg,
    exec i s = .next (s.withBlock b) ∧ b.done = true ∧ b.pending = none ∧ b.busy = false

/-- R163: a command that ends in an error leaves every register, every byte of BUF, BORROW and CMP as they were: only
ERRCODE, BUSY and DONE change. -/
def Obligations.ErrorsWriteNothingButTheCode : Prop :=
  ∀ (i : Instr) (s t : State), exec i s = .next t → t.block.errcode ≠ 0 →
    t = s.withBlock { s.block with errcode := t.block.errcode, pending := none, done := true }

/-- R165, with the causes of R164: which command can end with which code, and when. -/
def Obligations.ErrorCodesOfEachCommand : Prop :=
  (∀ (i : Instr) (s t : State), exec i s = .next t →
    t.block.errcode =
      match i with
      | .fromb _ => if s.cfg.nb < s.block.arg.toNat then 2 else 0
      | .tob _ => if s.cfg.nb < s.block.arg.toNat then 2 else 0
      | .ldi _ => 0
      | .clr _ => 0
      | .mov _ _ => 0
      | .add _ _ _ => 0
      | .sub _ _ _ => 0
      | .cmp _ _ => 0
      | .modmul _ rs1 rs2 rs3 =>
        if s.block.reg rs3 = 0 then 3
        else if (s.block.reg rs3).toNat ≤ (s.block.reg rs1).toNat ∨ (s.block.reg rs3).toNat ≤ (s.block.reg rs2).toNat
        then 4 else 0
      | .modexp _ _ _ rs3 => if s.block.reg rs3 = 0 then 3 else 0) ∧
  (∀ s t : State, s.engineNext = true → s.block.pending = some .illegal → step s = .next t → t.block.errcode = 1)

/-- R80, 90_conflicts.md C8: a command depends on no operand register it does not name. On two machines that differ only
in other registers it gives the same code, bytes, flags and destination value. -/
def Obligations.CommandsReadOnlyTheRegistersTheyName : Prop :=
  ∀ (i : Instr) (s : State) (regs : Vector (BitVec s.cfg.width) 16),
    (∀ j ∈ sources i, regs[j] = s.block.reg j) →
    ∃ b b' : Block s.cfg,
      exec i s = .next (s.withBlock b) ∧ exec i (s.withBlock { s.block with regs := regs }) = .next (s.withBlock b') ∧
      b'.errcode = b.errcode ∧ b'.buf = b.buf ∧ b'.borrow = b.borrow ∧ b'.cmp = b.cmp ∧
      (∀ rd, destination i = some rd → b.errcode = 0 → b'.reg rd = b.reg rd) ∧
      (∀ j : Reg, destination i ≠ some j → b'.reg j = regs[j])

/-- R87: FROMB into a register and TOB from it with one length put back every byte of BUF, and the same list of cells
where it was canonical (the list form is the model's choice, log 10); and CMP is a total order: one of three codes, EQUAL exactly on equal values, and exchanging the
sources exchanges LESS and GREATER. -/
def Obligations.ConversionRoundTripAndTotalOrder : Prop :=
  (∀ (s : State) (rd : Reg), s.block.arg.toNat ≤ s.cfg.nb →
    ∃ t u : State, exec (.fromb rd) s = .next t ∧ exec (.tob rd) t = .next u ∧
      (∀ k, u.block.buf.read k = s.block.buf.read k) ∧ (s.Inv → u.block.buf = s.block.buf)) ∧
  (∀ (s : State) (rs1 rs2 : Reg),
    ∃ t u : State, exec (.cmp rs1 rs2) s = .next t ∧ exec (.cmp rs2 rs1) s = .next u ∧
      (t.block.cmp = 0b01 ∨ t.block.cmp = 0b00 ∨ t.block.cmp = 0b10) ∧
      (t.block.cmp = 0b00 ↔ s.block.reg rs1 = s.block.reg rs2) ∧
      (t.block.cmp = 0b01 ↔ u.block.cmp = 0b10) ∧ (t.block.cmp = 0b10 ↔ u.block.cmp = 0b01))

/-! ### Whole-machine rules -/

/-- R23, R24, R30, R49, R161: every step keeps the legal states of the block, in every state and not only in runs. (That BUF
is a canonical list of cells is the form the model chose, log 10.) -/
def Obligations.StepKeepsTheInvariant : Prop :=
  ∀ s t : State, s.Inv → step s = .next t → t.Inv

/-- R34: the state after reset is legal, in every configuration. -/
def Obligations.ResetMeetsTheInvariant : Prop :=
  State.reset.Inv ∧ ∀ cfg : Config, (State.resetOf cfg).Inv

/-- R27, R35: N, W, BASE and the window are constants: no step changes the configuration. -/
def Obligations.NoStepChangesTheConfiguration : Prop :=
  ∀ s t : State, step s = .next t → t.cfg = s.cfg ∧ paramWord t.cfg = paramWord s.cfg

/-- R23: outside a reset, only the completion of a SUB writes BORROW and only that of a CMP writes STATUS.CMP. -/
def Obligations.FlagsAreWrittenOnlyByTheirCommands : Prop :=
  ∀ s t : State, step s = .next t → s.resetNext = false →
    ((∀ rd rs1 rs2, ¬ (s.engineNext = true ∧ s.running (.sub rd rs1 rs2))) → t.block.borrow = s.block.borrow) ∧
    ((∀ rs1 rs2, ¬ (s.engineNext = true ∧ s.running (.cmp rs1 rs2))) → t.block.cmp = s.block.cmp)

/-- R20, R24, R25: outside a reset, an operand register changes only at the completion of a command that names it as rd;
BUF only at the completion of a TOB or by a host write while idle; ARG only by a host write while idle. -/
def Obligations.DataChangesOnlyWhereTheSpecSays : Prop :=
  ∀ s t : State, step s = .next t → s.resetNext = false →
    (∀ j : Reg, (∀ i, ¬ (s.engineNext = true ∧ s.running i ∧ destination i = some j)) →
      (t.block.reg j).toNat = (s.block.reg j).toNat) ∧
    ((∀ rs1, ¬ (s.engineNext = true ∧ s.running (.tob rs1))) →
      (∀ k v, ¬ (k < s.cfg.nb / 4 ∧ s.nextWrite (0x400 + 4 * k) v ∧ s.block.pending = none)) →
      t.block.buf = s.block.buf) ∧
    ((∀ v, ¬ (s.nextWrite 0x010 v ∧ s.block.pending = none)) → t.block.arg = s.block.arg)

/-- R33, R168: the line is IE AND DONE; a completion raises it exactly when IE = 1, error or not; acceptance, writing 1
to STATUS bit 1 and reset lower it; clearing IE masks it and leaves DONE; a dropped write leaves it as it was. -/
def Obligations.InterruptLineFollowsCompletion : Prop :=
  ∀ s t : State, step s = .next t →
    t.block.irq = (t.block.ie && t.block.done) ∧
    (s.engineNext = true → s.block.pending ≠ none → t.block.irq = s.block.ie) ∧
    (∀ v, s.nextWrite 0x00C v → s.block.pending = none → t.block.irq = false) ∧
    (∀ v, s.nextWrite 0x008 v → v.getLsbD 1 = true → t.block.irq = false) ∧
    (s.resetNext = true → t.block.irq = false) ∧
    (∀ v, s.nextWrite 0x004 v → v.getLsbD 0 = false → v.getLsbD 1 = false →
      t.block.irq = false ∧ t.block.done = s.block.done) ∧
    (∀ a, s.nextAccess a → a.breaksHazardRule s = true → t.block.irq = s.block.irq)

/-- R171: OVERRUN becomes 1 exactly when the host writes CMD, ARG or BUF while busy, and such a write changes neither the
pending command nor ERRCODE, DONE or irq; OVERRUN stays 1 until a 1 is written to STATUS bit 6 or until reset. -/
def Obligations.OverrunRecordsTheDroppedWrites : Prop :=
  ∀ s t : State, step s = .next t →
    ((∃ a, s.nextAccess a ∧ a.breaksHazardRule s = true) →
      t.block.overrun = true ∧ t.block.pending = s.block.pending ∧ t.block.errcode = s.block.errcode ∧
      t.block.done = s.block.done ∧ t.block.irq = s.block.irq) ∧
    (t.block.overrun = true → s.block.overrun = true ∨ ∃ a, s.nextAccess a ∧ a.breaksHazardRule s = true) ∧
    (s.block.overrun = true → t.block.overrun = false →
      s.resetNext = true ∨ ∃ v, s.nextWrite 0x008 v ∧ v.getLsbD 6 = true)

/-- R48, R52, R203: LATENCY is no input. Whatever accesses the host makes between acceptance and completion, short of a
reset, and however many, the running command ends as if it had completed at once: the same registers, BUF, flags, error
code, ARG and CMD. -/
def Obligations.LatencyDoesNotChangeTheResult : Prop :=
  ∀ (s : State) (i : Instr) (as : List BusAccess) (rest : List Event),
    s.running i → (∀ a ∈ as, a.performed s.cfg = true ∧ a.softReset s.cfg = false) →
    s.events = as.map Event.access ++ .engine :: rest →
    ∃ (b b' : Block s.cfg) (reads : List Word),
      exec i s = .next (s.withBlock b) ∧
      Host.Core.run Sys2Proof.core (as.length + 1) s =
        .next { s with block := b', events := rest, hostReads := reads ++ s.hostReads } ∧
      b'.regs = b.regs ∧ b'.buf = b.buf ∧ b'.borrow = b.borrow ∧ b'.cmp = b.cmp ∧ b'.errcode = b.errcode ∧
      b'.done = true ∧ b'.pending = none ∧ b'.arg = b.arg ∧ b'.cmd = b.cmd

/-- R8, for all ten commands and the host's accesses: on two machines of one WIDTH, whatever their W, that hold the same
values, every command leaves the same values, every write does, and every read but PARAM's gives the same word. -/
def Obligations.WordSizeDoesNotChangeWhatCommandsAndAccessesDo : Prop :=
  ∀ s s' : State, s.cfg.width = s'.cfg.width → s.block.SameValues s'.block →
    (∀ i : Instr, ∃ (b : Block s.cfg) (b' : Block s'.cfg),
      exec i s = .next (s.withBlock b) ∧ exec i s' = .next (s'.withBlock b') ∧ b.SameValues b') ∧
    (∀ off, off ≠ 0x000 → s.block.memRead off = s'.block.memRead off) ∧
    (∀ (off : Nat) (v : Word), (s.block.memWrite off v).SameValues (s'.block.memWrite off v)) ∧
    s.block.irq = s'.block.irq

/-- R203, R204: a run ends when the host has performed its last access and no command is pending, whatever engine turns or
platform resets are still to come. Every run whose accesses the block performs ends, one step after its last event at the
latest (log 3's fairness), at one point only; from there on its observation stays, short of a power-on reset. -/
def Obligations.EveryRunEndsAtOnePointAndStaysThere : Prop :=
  (∀ s : State, s.finished ↔ (∀ a, Event.access a ∉ s.events) ∧ s.block.pending = none) ∧
  (∀ s : State, (∀ a, Event.access a ∈ s.events → a.performed s.cfg = true) →
    ∃ (k : Nat) (t : State), k ≤ s.events.length + 1 ∧ s.endsAfter k t) ∧
  (∀ (s t t' : State) (k k' : Nat), s.endsAfter k t → s.endsAfter k' t' → k = k' ∧ t = t') ∧
  (∀ s : State, s.finished → s.events.head? ≠ some .powerOnReset →
    step s = .next s.popEvent ∧ s.popEvent.finished ∧ s.popEvent.observation = s.observation)
end

