-- ==== Sys2Proof/Laws/Config.lean ====
section
/-! SUPPORT. What every configuration has, from the constraints of 00_scope.md R7 and 20_memory.md R40. -/

namespace Sys2Proof

/-- The constraints of R7 and R40, as one arithmetic fact. -/
theorem Params.wf_iff (p : Params) : p.wf = true ↔
    (p.w = 8 ∨ p.w = 16 ∨ p.w = 32 ∨ p.w = 64) ∧ (1 ≤ p.n ∧ p.n ≤ 65535) ∧ p.width % 32 = 0 ∧ 32 ≤ p.width ∧
      p.base % 4096 = 0 ∧ p.window % 4096 = 0 ∧ 0x400 + p.nb ≤ p.window := by
  simp only [Params.wf, Bool.and_eq_true, Bool.or_eq_true, beq_iff_eq, decide_eq_true_eq]
  unfold pageBytes bufOffset
  tauto

theorem Config.ofParams?_eq_some {p : Params} {c : Config} : Config.ofParams? p = some c ↔ c.params = p := by
  unfold Config.ofParams?
  split_ifs with h
  · simp only [Option.some.injEq]
    exact ⟨fun e => e ▸ rfl, fun e => by cases c; simp_all⟩
  · simp only [false_iff]
    exact fun e => h (e ▸ c.ok)

namespace Config

variable (c : Config)

theorem w_cases : c.w = 8 ∨ c.w = 16 ∨ c.w = 32 ∨ c.w = 64 := ((Params.wf_iff _).mp c.ok).1

theorem w_pos : 0 < c.w := by have := c.w_cases; omega

theorem w_lt : c.w < 2 ^ 8 := by have := c.w_cases; omega

theorem n_pos : 0 < c.n := ((Params.wf_iff _).mp c.ok).2.1.1

theorem n_lt : c.n < 2 ^ 16 := by
  have := ((Params.wf_iff _).mp c.ok).2.1.2
  exact Nat.lt_succ_of_le this

theorem width_mod : c.width % 32 = 0 := ((Params.wf_iff _).mp c.ok).2.2.1

theorem width_ge : 32 ≤ c.width := ((Params.wf_iff _).mp c.ok).2.2.2.1

theorem base_mod : c.base % 4096 = 0 := ((Params.wf_iff _).mp c.ok).2.2.2.2.1

theorem window_ge : 0x400 + c.nb ≤ c.window := ((Params.wf_iff _).mp c.ok).2.2.2.2.2.2

/-- WIDTH = N * W (R6). -/
theorem width_eq : c.width = c.n * c.w := rfl

/-- The bits of NB bytes are WIDTH bits (R6). -/
theorem width_eq_bytes : c.width = 8 * c.nb := by
  have := c.width_mod
  show c.params.width = 8 * (c.params.width / 8)
  change c.params.width % 32 = 0 at this
  omega

/-- BUF fills whole bus words (R7). -/
theorem nb_mod : c.nb % 4 = 0 := by
  have := c.width_mod
  show c.params.width / 8 % 4 = 0
  change c.params.width % 32 = 0 at this
  omega

end Config

end Sys2Proof
end

