-- ==== Sys2Proof/Laws/Memory.lean ====
section
/-! SUPPORT. BUF as memory: read after write, the canonical form, and that equal buffers are equal lists
(10_state.md R24, R34). -/

namespace Sys2Proof.Machine

section memory

variable (m : Memory) (nb k j : Nat) (v : Byte)

/-! #### Read after erase and insert -/

@[simp] theorem Memory.read_nil : Memory.read [] k = 0 := rfl

theorem Memory.read_cons (c : Host.Cell) (rest : Memory) :
    Memory.read (c :: rest) k = if c.1 = k then c.2 else Memory.read rest k := rfl

theorem Memory.read_erase : (m.erase k).read j = if j = k then 0 else m.read j := by
  induction m with
  | nil => simp [Memory.erase]
  | cons c rest ih =>
    simp only [Memory.erase, List.filter_cons] at ih ⊢
    by_cases hc : c.1 = k <;> by_cases hj : j = k <;> simp_all [Memory.read_cons]
    · intro h
      exact absurd h.symm hj

theorem Memory.read_insertCell (hk : ∀ c ∈ m, c.1 ≠ k) :
    (m.insertCell k v).read j = if j = k then v else m.read j := by
  induction m with
  | nil =>
    by_cases hj : j = k
    · simp [Memory.insertCell, Memory.read_cons, hj]
    · simp [Memory.insertCell, Memory.read_cons, hj, Ne.symm hj]
  | cons c rest ih =>
    have hc : c.1 ≠ k := hk c (by simp)
    have hr : ∀ d ∈ rest, d.1 ≠ k := fun d hd => hk d (by simp [hd])
    by_cases hlt : k < c.1
    · by_cases hj : j = k
      · simp [Memory.insertCell, Memory.read_cons, hlt, hj]
      · simp [Memory.insertCell, Memory.read_cons, hlt, hj, Ne.symm hj]
    · simp only [Memory.insertCell, hlt, if_false, Memory.read_cons, ih hr]
      by_cases hj : j = k
      · subst hj
        simp [hc]
      · simp [hj]

theorem Memory.not_mem_erase : ∀ c ∈ m.erase k, c.1 ≠ k := by
  intro c hc
  have := (List.mem_filter.mp hc).2
  simpa using this

/-- The one law of a write: the byte at `k` is `v` and every other byte is as before. -/
theorem Memory.read_write : (m.write k v).read j = if j = k then v else m.read j := by
  unfold Memory.write
  by_cases hv : v = 0
  · simp [hv, Memory.read_erase]
  · simp only [hv, if_false]
    rw [Memory.read_insertCell _ _ _ _ (Memory.not_mem_erase m k)]
    by_cases hj : j = k <;> simp [hj, Memory.read_erase]

@[simp] theorem Memory.read_write_same : (m.write k v).read k = v := by simp [Memory.read_write]

@[simp] theorem Memory.read_write_other {k j : Nat} (h : j ≠ k) : (m.write k v).read j = m.read j := by
  simp [Memory.read_write, h]

/-- `writeBytes` puts `bs[i]` at `first + i` and leaves every other byte alone. -/
theorem Memory.read_writeBytes (bs : List Byte) (m : Memory) (first j : Nat) :
    (m.writeBytes first bs).read j =
      if first ≤ j ∧ j < first + bs.length then bs.getD (j - first) 0 else m.read j := by
  induction bs generalizing m first with
  | nil => simp [Memory.writeBytes]
  | cons v vs ih =>
    rw [Memory.writeBytes, ih, Memory.read_write]
    by_cases hj : j = first
    · subst hj
      simp
    · by_cases hin : first + 1 ≤ j ∧ j < first + 1 + vs.length
      · have h2 : first ≤ j ∧ j < first + (v :: vs).length := by simp; omega
        rw [if_pos hin, if_pos h2]
        obtain ⟨d, rfl⟩ : ∃ d, j = first + 1 + d := ⟨j - (first + 1), by omega⟩
        have e1 : first + 1 + d - (first + 1) = d := by omega
        have e2 : first + 1 + d - first = d + 1 := by omega
        rw [e1, e2]
        simp
      · have h2 : ¬ (first ≤ j ∧ j < first + (v :: vs).length) := by simp; omega
        rw [if_neg hin, if_neg h2, if_neg hj]

/-! #### The canonical form -/

theorem Memory.wf_nil : Memory.wf [] nb := by simp [Memory.wf]

theorem Memory.wf_erase (h : m.wf nb) : (m.erase k).wf nb :=
  ⟨h.1.sublist List.filter_sublist, fun c hc => h.2 c (List.mem_of_mem_filter hc)⟩

theorem Memory.mem_insertCell {m : Memory} {k : Nat} {v : Byte} {c : Host.Cell} (h : c ∈ m.insertCell k v) :
    c = (k, v) ∨ c ∈ m := by
  induction m with
  | nil => exact .inl (by simpa [Memory.insertCell] using h)
  | cons d rest ih =>
    by_cases hlt : k < d.1
    · simpa [Memory.insertCell, hlt] using h
    · simp only [Memory.insertCell, hlt, if_false, List.mem_cons] at h
      rcases h with h | h
      · exact .inr (by simp [h])
      · exact (ih h).imp id (by simp +contextual)

theorem Memory.wf_insertCell (h : m.wf nb) (hk : k < nb) (hv : v ≠ 0) (hnew : ∀ c ∈ m, c.1 ≠ k) :
    (m.insertCell k v).wf nb := by
  refine ⟨?_, fun c hc => ?_⟩
  · have hp := h.1
    clear h
    induction m with
    | nil => simp [Memory.insertCell]
    | cons d rest ih =>
      obtain ⟨hd, hr⟩ := List.pairwise_cons.mp hp
      by_cases hlt : k < d.1
      · simp only [Memory.insertCell, hlt, if_true, List.pairwise_cons]
        refine ⟨fun c hc => ?_, hd, hr⟩
        rcases List.mem_cons.mp hc with rfl | hc
        · exact hlt
        · exact hlt.trans (hd c hc)
      · simp only [Memory.insertCell, hlt, if_false, List.pairwise_cons]
        refine ⟨fun c hc => ?_, ih (fun c hc => hnew c (by simp [hc])) hr⟩
        rcases Memory.mem_insertCell hc with rfl | hc
        · have : d.1 ≠ k := hnew d (by simp)
          show d.1 < k
          omega
        · exact hd c hc
  · rcases Memory.mem_insertCell hc with rfl | hc
    · exact ⟨hk, hv⟩
    · exact h.2 c hc

/-- A write inside the buffer keeps the canonical form. -/
theorem Memory.wf_write (h : m.wf nb) (hk : k < nb) : (m.write k v).wf nb := by
  unfold Memory.write
  by_cases hv : v = 0
  · simpa [hv] using Memory.wf_erase m nb k h
  · simpa only [hv, if_false] using
      Memory.wf_insertCell _ nb k v (Memory.wf_erase m nb k h) hk hv (Memory.not_mem_erase m k)

theorem Memory.wf_writeBytes {nb : Nat} (bs : List Byte) (m : Memory) (first : Nat) (h : m.wf nb)
    (hb : first + bs.length ≤ nb) : (m.writeBytes first bs).wf nb := by
  induction bs generalizing m first with
  | nil => simpa [Memory.writeBytes] using h
  | cons v vs ih =>
    simp only [List.length_cons] at hb
    exact ih _ _ (Memory.wf_write m nb first v h (by omega)) (by omega)

/-! #### Equal buffers are equal lists -/

/-- In a canonical list the head's byte is what its index reads as, and lower indexes read as 0x00. -/
theorem Memory.read_below {c : Host.Cell} {rest : Memory} (h : (c :: rest).Pairwise (fun c d => c.1 < d.1)) {k : Nat}
    (hk : k < c.1) : Memory.read (c :: rest) k = 0 := by
  induction rest generalizing c with
  | nil => simp [Memory.read_cons]; omega
  | cons d rest ih =>
    obtain ⟨hc, hr⟩ := List.pairwise_cons.mp h
    have hcd := hc d (by simp)
    rw [Memory.read_cons, if_neg (by omega), ih hr (by omega)]

/-- Two canonical buffers that read the same everywhere are the same list. -/
theorem Memory.ext_of_wf {m m' : Memory} {nb nb' : Nat} (h : m.wf nb) (h' : m'.wf nb')
    (heq : ∀ k, m.read k = m'.read k) : m = m' := by
  induction m generalizing m' with
  | nil =>
    cases m' with
    | nil => rfl
    | cons c rest =>
      have := heq c.1
      rw [Memory.read_cons, if_pos rfl] at this
      exact absurd this.symm (h'.2 c (by simp)).2
  | cons c rest ih =>
    cases m' with
    | nil =>
      have := heq c.1
      rw [Memory.read_cons, if_pos rfl] at this
      exact absurd this (h.2 c (by simp)).2
    | cons d rest' =>
      have hc : Memory.read (c :: rest) c.1 = c.2 := by simp [Memory.read_cons]
      have hd : Memory.read (d :: rest') d.1 = d.2 := by simp [Memory.read_cons]
      have hcd : c.1 = d.1 := by
        rcases Nat.lt_trichotomy c.1 d.1 with hlt | he | hlt
        · have := heq c.1
          rw [hc, Memory.read_below h'.1 hlt] at this
          exact absurd this (h.2 c (by simp)).2
        · exact he
        · have := heq d.1
          rw [hd, Memory.read_below h.1 hlt] at this
          exact absurd this.symm (h'.2 d (by simp)).2
      have hv : c.2 = d.2 := by
        have := heq c.1
        rwa [hc, hcd, hd] at this
      obtain ⟨hcr, hrp⟩ := List.pairwise_cons.mp h.1
      obtain ⟨hdr, hrp'⟩ := List.pairwise_cons.mp h'.1
      have hrest : rest = rest' := by
        refine ih ⟨hrp, fun e he => h.2 e (by simp [he])⟩ ⟨hrp', fun e he => h'.2 e (by simp [he])⟩ fun k => ?_
        rcases Nat.lt_trichotomy k c.1 with hlt | he | hlt
        · have e1 : Memory.read rest k = 0 := by
            have := Memory.read_below h.1 hlt
            rwa [Memory.read_cons, if_neg (by omega)] at this
          have e2 : Memory.read rest' k = 0 := by
            have := Memory.read_below h'.1 (hcd ▸ hlt)
            rwa [Memory.read_cons, if_neg (by omega)] at this
          rw [e1, e2]
        · have zero : ∀ (l : Memory) (a : Nat), (∀ e ∈ l, a < e.1) → Memory.read l a = 0 := by
            intro l a hl
            induction l with
            | nil => rfl
            | cons e l ihl =>
              have := hl e (by simp)
              rw [Memory.read_cons, if_neg (by omega)]
              exact ihl fun e he => hl e (by simp [he])
          rw [zero rest k (fun e he' => he ▸ hcr e he'), zero rest' k (fun e he' => he ▸ hcd ▸ hdr e he')]
        · have := heq k
          rwa [Memory.read_cons, Memory.read_cons, if_neg (by omega), if_neg (by omega)] at this
      rw [hrest, Prod.ext hcd hv]

/-! #### The bus words and byte sequences (20_memory.md R46, 40_conversion.md R82) -/

/-- A bus word written changes its four bytes, each by its lane, and no other byte. -/
theorem Memory.read_writeBusWord (w : Word) :
    (m.writeBusWord k w).read j =
      if 4 * k ≤ j ∧ j < 4 * k + 4 then w.extractLsb' (8 * (j - 4 * k)) 8 else m.read j := by
  rw [Memory.writeBusWord, Memory.read_writeBytes]
  by_cases h : 4 * k ≤ j ∧ j < 4 * k + 4
  · obtain ⟨d, rfl⟩ : ∃ d, j = 4 * k + d := ⟨j - 4 * k, by omega⟩
    have hd : d < 4 := by omega
    have e : 4 * k + d - 4 * k = d := by omega
    rw [if_pos (by simp; omega), if_pos h, e]
    interval_cases d <;> rfl
  · rw [if_neg (by simp; omega), if_neg h]

theorem Memory.wf_writeBusWord (w : Word) (h : m.wf nb) (hk : 4 * k + 4 ≤ nb) : (m.writeBusWord k w).wf nb :=
  Memory.wf_writeBytes _ _ _ h (by simpa using hk)

/-- The bits of four bytes joined into a bus word. -/
theorem getLsbD_fourBytes (b3 b2 b1 b0 : Byte) (n : Nat) :
    (b3 ++ b2 ++ b1 ++ b0 : Word).getLsbD n =
      if n < 8 then b0.getLsbD n else if n < 16 then b1.getLsbD (n - 8) else
        if n < 24 then b2.getLsbD (n - 16) else b3.getLsbD (n - 24) := by
  show BitVec.getLsbD (w := 8 + 8 + 8 + 8) _ n = _
  simp only [BitVec.getLsbD_append, Nat.sub_sub]
  split_ifs <;> first | rfl | omega

/-- Byte `i` of bus word `k` is BUF[4k + i] (R46). -/
theorem Memory.extract_busWord {i : Nat} (hi : i < 4) :
    (m.busWord k).extractLsb' (8 * i) 8 = m.read (4 * k + i) := by
  apply BitVec.eq_of_getLsbD_eq
  intro n hn
  rw [BitVec.getLsbD_extractLsb', Memory.busWord, getLsbD_fourBytes]
  interval_cases i <;> interval_cases n <;> rfl

/-- TOB's bytes: index k below `len` gets its byte of the value, and the others stay (R82). -/
theorem read_toBytes (value len : Nat) :
    (toBytes m value len).read j = if j < len then byteOf value len j else m.read j := by
  rw [toBytes, Memory.read_writeBytes]
  by_cases h : j < len
  · simp [h]
  · simp [h]

theorem wf_toBytes (value len : Nat) (h : m.wf nb) (hlen : len ≤ nb) : (toBytes m value len).wf nb :=
  Memory.wf_writeBytes _ _ _ h (by simpa using hlen)

end memory

end Sys2Proof.Machine
end

