-- ==== Sys2Proof/Laws/State.lean ====
section
/-! SUPPORT. One lemma per field of the state per update of it, each by definition, so that no proof unfolds a record. -/

namespace Sys2Proof.Machine

section blockUpdates

variable {cfg : Config} (b : Block cfg)

/-! #### setReg -/

@[simp] theorem Block.setReg_regs (i : Reg) (v : BitVec cfg.width) : (b.setReg i v).regs = b.regs.set i v := rfl
@[simp] theorem Block.setReg_buf (i : Reg) (v : BitVec cfg.width) : (b.setReg i v).buf = b.buf := rfl
@[simp] theorem Block.setReg_arg (i : Reg) (v : BitVec cfg.width) : (b.setReg i v).arg = b.arg := rfl
@[simp] theorem Block.setReg_cmd (i : Reg) (v : BitVec cfg.width) : (b.setReg i v).cmd = b.cmd := rfl
@[simp] theorem Block.setReg_ie (i : Reg) (v : BitVec cfg.width) : (b.setReg i v).ie = b.ie := rfl
@[simp] theorem Block.setReg_done (i : Reg) (v : BitVec cfg.width) : (b.setReg i v).done = b.done := rfl
@[simp] theorem Block.setReg_borrow (i : Reg) (v : BitVec cfg.width) : (b.setReg i v).borrow = b.borrow := rfl
@[simp] theorem Block.setReg_cmp (i : Reg) (v : BitVec cfg.width) : (b.setReg i v).cmp = b.cmp := rfl
@[simp] theorem Block.setReg_overrun (i : Reg) (v : BitVec cfg.width) : (b.setReg i v).overrun = b.overrun := rfl
@[simp] theorem Block.setReg_errcode (i : Reg) (v : BitVec cfg.width) : (b.setReg i v).errcode = b.errcode := rfl
@[simp] theorem Block.setReg_pending (i : Reg) (v : BitVec cfg.width) : (b.setReg i v).pending = b.pending := rfl

/-! #### setBorrow -/

@[simp] theorem Block.setBorrow_regs (v : Bool) : (b.setBorrow v).regs = b.regs := rfl
@[simp] theorem Block.setBorrow_buf (v : Bool) : (b.setBorrow v).buf = b.buf := rfl
@[simp] theorem Block.setBorrow_arg (v : Bool) : (b.setBorrow v).arg = b.arg := rfl
@[simp] theorem Block.setBorrow_cmd (v : Bool) : (b.setBorrow v).cmd = b.cmd := rfl
@[simp] theorem Block.setBorrow_ie (v : Bool) : (b.setBorrow v).ie = b.ie := rfl
@[simp] theorem Block.setBorrow_done (v : Bool) : (b.setBorrow v).done = b.done := rfl
@[simp] theorem Block.setBorrow_borrow (v : Bool) : (b.setBorrow v).borrow = v := rfl
@[simp] theorem Block.setBorrow_cmp (v : Bool) : (b.setBorrow v).cmp = b.cmp := rfl
@[simp] theorem Block.setBorrow_overrun (v : Bool) : (b.setBorrow v).overrun = b.overrun := rfl
@[simp] theorem Block.setBorrow_errcode (v : Bool) : (b.setBorrow v).errcode = b.errcode := rfl
@[simp] theorem Block.setBorrow_pending (v : Bool) : (b.setBorrow v).pending = b.pending := rfl

/-! #### setCmp -/

@[simp] theorem Block.setCmp_regs (v : BitVec 2) : (b.setCmp v).regs = b.regs := rfl
@[simp] theorem Block.setCmp_buf (v : BitVec 2) : (b.setCmp v).buf = b.buf := rfl
@[simp] theorem Block.setCmp_arg (v : BitVec 2) : (b.setCmp v).arg = b.arg := rfl
@[simp] theorem Block.setCmp_cmd (v : BitVec 2) : (b.setCmp v).cmd = b.cmd := rfl
@[simp] theorem Block.setCmp_ie (v : BitVec 2) : (b.setCmp v).ie = b.ie := rfl
@[simp] theorem Block.setCmp_done (v : BitVec 2) : (b.setCmp v).done = b.done := rfl
@[simp] theorem Block.setCmp_borrow (v : BitVec 2) : (b.setCmp v).borrow = b.borrow := rfl
@[simp] theorem Block.setCmp_cmp (v : BitVec 2) : (b.setCmp v).cmp = v := rfl
@[simp] theorem Block.setCmp_overrun (v : BitVec 2) : (b.setCmp v).overrun = b.overrun := rfl
@[simp] theorem Block.setCmp_errcode (v : BitVec 2) : (b.setCmp v).errcode = b.errcode := rfl
@[simp] theorem Block.setCmp_pending (v : BitVec 2) : (b.setCmp v).pending = b.pending := rfl

/-! #### setBuf -/

@[simp] theorem Block.setBuf_regs (m : Memory) : (b.setBuf m).regs = b.regs := rfl
@[simp] theorem Block.setBuf_buf (m : Memory) : (b.setBuf m).buf = m := rfl
@[simp] theorem Block.setBuf_arg (m : Memory) : (b.setBuf m).arg = b.arg := rfl
@[simp] theorem Block.setBuf_cmd (m : Memory) : (b.setBuf m).cmd = b.cmd := rfl
@[simp] theorem Block.setBuf_ie (m : Memory) : (b.setBuf m).ie = b.ie := rfl
@[simp] theorem Block.setBuf_done (m : Memory) : (b.setBuf m).done = b.done := rfl
@[simp] theorem Block.setBuf_borrow (m : Memory) : (b.setBuf m).borrow = b.borrow := rfl
@[simp] theorem Block.setBuf_cmp (m : Memory) : (b.setBuf m).cmp = b.cmp := rfl
@[simp] theorem Block.setBuf_overrun (m : Memory) : (b.setBuf m).overrun = b.overrun := rfl
@[simp] theorem Block.setBuf_errcode (m : Memory) : (b.setBuf m).errcode = b.errcode := rfl
@[simp] theorem Block.setBuf_pending (m : Memory) : (b.setBuf m).pending = b.pending := rfl

/-! #### setArg -/

@[simp] theorem Block.setArg_regs (v : Word) : (b.setArg v).regs = b.regs := rfl
@[simp] theorem Block.setArg_buf (v : Word) : (b.setArg v).buf = b.buf := rfl
@[simp] theorem Block.setArg_arg (v : Word) : (b.setArg v).arg = v := rfl
@[simp] theorem Block.setArg_cmd (v : Word) : (b.setArg v).cmd = b.cmd := rfl
@[simp] theorem Block.setArg_ie (v : Word) : (b.setArg v).ie = b.ie := rfl
@[simp] theorem Block.setArg_done (v : Word) : (b.setArg v).done = b.done := rfl
@[simp] theorem Block.setArg_borrow (v : Word) : (b.setArg v).borrow = b.borrow := rfl
@[simp] theorem Block.setArg_cmp (v : Word) : (b.setArg v).cmp = b.cmp := rfl
@[simp] theorem Block.setArg_overrun (v : Word) : (b.setArg v).overrun = b.overrun := rfl
@[simp] theorem Block.setArg_errcode (v : Word) : (b.setArg v).errcode = b.errcode := rfl
@[simp] theorem Block.setArg_pending (v : Word) : (b.setArg v).pending = b.pending := rfl

/-! #### accept -/

@[simp] theorem Block.accept_regs (v : Word) : (b.accept v).regs = b.regs := rfl
@[simp] theorem Block.accept_buf (v : Word) : (b.accept v).buf = b.buf := rfl
@[simp] theorem Block.accept_arg (v : Word) : (b.accept v).arg = b.arg := rfl
@[simp] theorem Block.accept_cmd (v : Word) : (b.accept v).cmd = v := rfl
@[simp] theorem Block.accept_ie (v : Word) : (b.accept v).ie = b.ie := rfl
@[simp] theorem Block.accept_done (v : Word) : (b.accept v).done = false := rfl
@[simp] theorem Block.accept_borrow (v : Word) : (b.accept v).borrow = b.borrow := rfl
@[simp] theorem Block.accept_cmp (v : Word) : (b.accept v).cmp = b.cmp := rfl
@[simp] theorem Block.accept_overrun (v : Word) : (b.accept v).overrun = b.overrun := rfl
@[simp] theorem Block.accept_errcode (v : Word) : (b.accept v).errcode = 0 := rfl
@[simp] theorem Block.accept_pending (v : Word) : (b.accept v).pending = some (decode v) := rfl

/-! #### dropWrite -/

@[simp] theorem Block.dropWrite_regs : b.dropWrite.regs = b.regs := rfl
@[simp] theorem Block.dropWrite_buf : b.dropWrite.buf = b.buf := rfl
@[simp] theorem Block.dropWrite_arg : b.dropWrite.arg = b.arg := rfl
@[simp] theorem Block.dropWrite_cmd : b.dropWrite.cmd = b.cmd := rfl
@[simp] theorem Block.dropWrite_ie : b.dropWrite.ie = b.ie := rfl
@[simp] theorem Block.dropWrite_done : b.dropWrite.done = b.done := rfl
@[simp] theorem Block.dropWrite_borrow : b.dropWrite.borrow = b.borrow := rfl
@[simp] theorem Block.dropWrite_cmp : b.dropWrite.cmp = b.cmp := rfl
@[simp] theorem Block.dropWrite_overrun : b.dropWrite.overrun = true := rfl
@[simp] theorem Block.dropWrite_errcode : b.dropWrite.errcode = b.errcode := rfl
@[simp] theorem Block.dropWrite_pending : b.dropWrite.pending = b.pending := rfl

/-! #### completeOk -/

@[simp] theorem Block.completeOk_regs : b.completeOk.regs = b.regs := rfl
@[simp] theorem Block.completeOk_buf : b.completeOk.buf = b.buf := rfl
@[simp] theorem Block.completeOk_arg : b.completeOk.arg = b.arg := rfl
@[simp] theorem Block.completeOk_cmd : b.completeOk.cmd = b.cmd := rfl
@[simp] theorem Block.completeOk_ie : b.completeOk.ie = b.ie := rfl
@[simp] theorem Block.completeOk_done : b.completeOk.done = true := rfl
@[simp] theorem Block.completeOk_borrow : b.completeOk.borrow = b.borrow := rfl
@[simp] theorem Block.completeOk_cmp : b.completeOk.cmp = b.cmp := rfl
@[simp] theorem Block.completeOk_overrun : b.completeOk.overrun = b.overrun := rfl
@[simp] theorem Block.completeOk_errcode : b.completeOk.errcode = 0 := rfl
@[simp] theorem Block.completeOk_pending : b.completeOk.pending = none := rfl

/-! #### completeError -/

@[simp] theorem Block.completeError_regs (e : ErrorCode) : (b.completeError e).regs = b.regs := rfl
@[simp] theorem Block.completeError_buf (e : ErrorCode) : (b.completeError e).buf = b.buf := rfl
@[simp] theorem Block.completeError_arg (e : ErrorCode) : (b.completeError e).arg = b.arg := rfl
@[simp] theorem Block.completeError_cmd (e : ErrorCode) : (b.completeError e).cmd = b.cmd := rfl
@[simp] theorem Block.completeError_ie (e : ErrorCode) : (b.completeError e).ie = b.ie := rfl
@[simp] theorem Block.completeError_done (e : ErrorCode) : (b.completeError e).done = true := rfl
@[simp] theorem Block.completeError_borrow (e : ErrorCode) : (b.completeError e).borrow = b.borrow := rfl
@[simp] theorem Block.completeError_cmp (e : ErrorCode) : (b.completeError e).cmp = b.cmp := rfl
@[simp] theorem Block.completeError_overrun (e : ErrorCode) : (b.completeError e).overrun = b.overrun := rfl
@[simp] theorem Block.completeError_errcode (e : ErrorCode) : (b.completeError e).errcode = e.code := rfl
@[simp] theorem Block.completeError_pending (e : ErrorCode) : (b.completeError e).pending = none := rfl

/-! #### ackStatus -/

@[simp] theorem Block.ackStatus_regs (v : Word) : (b.ackStatus v).regs = b.regs := rfl
@[simp] theorem Block.ackStatus_buf (v : Word) : (b.ackStatus v).buf = b.buf := rfl
@[simp] theorem Block.ackStatus_arg (v : Word) : (b.ackStatus v).arg = b.arg := rfl
@[simp] theorem Block.ackStatus_cmd (v : Word) : (b.ackStatus v).cmd = b.cmd := rfl
@[simp] theorem Block.ackStatus_ie (v : Word) : (b.ackStatus v).ie = b.ie := rfl
@[simp] theorem Block.ackStatus_done (v : Word) : (b.ackStatus v).done = (b.done && !v.getLsbD 1) := rfl
@[simp] theorem Block.ackStatus_borrow (v : Word) : (b.ackStatus v).borrow = b.borrow := rfl
@[simp] theorem Block.ackStatus_cmp (v : Word) : (b.ackStatus v).cmp = b.cmp := rfl
@[simp] theorem Block.ackStatus_overrun (v : Word) : (b.ackStatus v).overrun = (b.overrun && !v.getLsbD 6) := rfl
@[simp] theorem Block.ackStatus_errcode (v : Word) : (b.ackStatus v).errcode = b.errcode := rfl
@[simp] theorem Block.ackStatus_pending (v : Word) : (b.ackStatus v).pending = b.pending := rfl

end blockUpdates

/-! #### The state after reset (10_state.md R34) -/

section blockReset

variable (cfg : Config)

@[simp] theorem Block.reset_regs : (Block.reset cfg).regs = Vector.replicate 16 0 := rfl
@[simp] theorem Block.reset_buf : (Block.reset cfg).buf = [] := rfl
@[simp] theorem Block.reset_arg : (Block.reset cfg).arg = 0 := rfl
@[simp] theorem Block.reset_cmd : (Block.reset cfg).cmd = 0 := rfl
@[simp] theorem Block.reset_ie : (Block.reset cfg).ie = false := rfl
@[simp] theorem Block.reset_done : (Block.reset cfg).done = false := rfl
@[simp] theorem Block.reset_borrow : (Block.reset cfg).borrow = false := rfl
@[simp] theorem Block.reset_cmp : (Block.reset cfg).cmp = 0 := rfl
@[simp] theorem Block.reset_overrun : (Block.reset cfg).overrun = false := rfl
@[simp] theorem Block.reset_errcode : (Block.reset cfg).errcode = 0 := rfl
@[simp] theorem Block.reset_pending : (Block.reset cfg).pending = none := rfl

end blockReset

/-! #### The machine around the block -/

section machineUpdates

variable (s : State)

@[simp] theorem State.withBlock_cfg (b : Block s.cfg) : (s.withBlock b).cfg = s.cfg := rfl
@[simp] theorem State.withBlock_block (b : Block s.cfg) : (s.withBlock b).block = b := rfl
@[simp] theorem State.withBlock_events (b : Block s.cfg) : (s.withBlock b).events = s.events := rfl
@[simp] theorem State.withBlock_hostReads (b : Block s.cfg) : (s.withBlock b).hostReads = s.hostReads := rfl

@[simp] theorem State.withEvents_cfg (es : List Event) : (s.withEvents es).cfg = s.cfg := rfl
@[simp] theorem State.withEvents_block (es : List Event) : (s.withEvents es).block = s.block := rfl
@[simp] theorem State.withEvents_events (es : List Event) : (s.withEvents es).events = es := rfl
@[simp] theorem State.withEvents_hostReads (es : List Event) : (s.withEvents es).hostReads = s.hostReads := rfl

@[simp] theorem State.logRead_cfg (v : Word) : (s.logRead v).cfg = s.cfg := rfl
@[simp] theorem State.logRead_block (v : Word) : (s.logRead v).block = s.block := rfl
@[simp] theorem State.logRead_events (v : Word) : (s.logRead v).events = s.events := rfl
@[simp] theorem State.logRead_hostReads (v : Word) : (s.logRead v).hostReads = v :: s.hostReads := rfl

@[simp] theorem State.accepted_cfg (v : Word) : (s.accepted v).cfg = s.cfg := rfl
@[simp] theorem State.accepted_block (v : Word) : (s.accepted v).block = s.block.accept v := rfl
@[simp] theorem State.accepted_events (v : Word) : (s.accepted v).events = .engine :: s.events := rfl
@[simp] theorem State.accepted_hostReads (v : Word) : (s.accepted v).hostReads = s.hostReads := rfl

theorem State.withEvents_self : s.withEvents s.events = s := rfl
@[simp] theorem State.withBlock_self : s.withBlock s.block = s := rfl
@[simp] theorem State.withBlock_withBlock (b b' : Block s.cfg) : (s.withBlock b).withBlock b' = s.withBlock b' := rfl
@[simp] theorem State.withEvents_withEvents (es es' : List Event) :
    (s.withEvents es).withEvents es' = s.withEvents es' := rfl
theorem State.withEvents_withBlock (es : List Event) (b : Block s.cfg) :
    (s.withBlock b).withEvents es = (s.withEvents es).withBlock b := rfl

end machineUpdates

section machineReset

variable (cfg : Config)

@[simp] theorem State.resetOf_cfg : (State.resetOf cfg).cfg = cfg := rfl
@[simp] theorem State.resetOf_block : (State.resetOf cfg).block = Block.reset cfg := rfl
@[simp] theorem State.resetOf_events : (State.resetOf cfg).events = [] := rfl
@[simp] theorem State.resetOf_hostReads : (State.resetOf cfg).hostReads = [] := rfl

end machineReset

/-! #### Operand registers (10_state.md R20) -/

section registers

variable {cfg : Config} (b : Block cfg)

@[simp] theorem Block.reg_setReg_same (i : Reg) (v : BitVec cfg.width) : (b.setReg i v).reg i = v := by
  simp [Block.reg]

@[simp] theorem Block.reg_setReg_other {i j : Reg} (v : BitVec cfg.width) (h : j ≠ i) :
    (b.setReg i v).reg j = b.reg j := by
  have hv : i.val ≠ j.val := fun e => h (Fin.ext e.symm)
  simp [Block.reg, Vector.getElem_set_ne _ _ hv]

/-- Writing a register with its own value changes nothing. -/
theorem Block.setReg_self (i : Reg) : b.setReg i (b.reg i) = b := by
  simp [Block.setReg, Block.reg]

/-- What register `j` holds depends on the register file alone. -/
theorem Block.reg_congr {b b' : Block cfg} (h : b.regs = b'.regs) (j : Reg) : b.reg j = b'.reg j := by
  simp [Block.reg, h]

@[simp] theorem Block.reg_reset (cfg : Config) (j : Reg) : (Block.reset cfg).reg j = 0 := by
  simp [Block.reg, Block.reset]

@[simp] theorem Block.setBorrow_reg (v : Bool) (j : Reg) : (b.setBorrow v).reg j = b.reg j := rfl
@[simp] theorem Block.setCmp_reg (v : BitVec 2) (j : Reg) : (b.setCmp v).reg j = b.reg j := rfl
@[simp] theorem Block.setBuf_reg (m : Memory) (j : Reg) : (b.setBuf m).reg j = b.reg j := rfl
@[simp] theorem Block.setArg_reg (v : Word) (j : Reg) : (b.setArg v).reg j = b.reg j := rfl
@[simp] theorem Block.accept_reg (v : Word) (j : Reg) : (b.accept v).reg j = b.reg j := rfl
@[simp] theorem Block.dropWrite_reg (j : Reg) : b.dropWrite.reg j = b.reg j := rfl
@[simp] theorem Block.completeOk_reg (j : Reg) : b.completeOk.reg j = b.reg j := rfl
@[simp] theorem Block.completeError_reg (e : ErrorCode) (j : Reg) : (b.completeError e).reg j = b.reg j := rfl
@[simp] theorem Block.ackStatus_reg (v : Word) (j : Reg) : (b.ackStatus v).reg j = b.reg j := rfl

end registers

end Sys2Proof.Machine
end

