-- ==== Sys2Proof/Laws/Bus.lean ====
section
/-! SUPPORT. The register window, register by register, and what a host access can do (20_memory.md R41 to R49). -/

namespace Sys2Proof.Machine

section map

variable (cfg : Config)

@[simp] theorem windowReg_param : windowReg cfg 0x000 = .param := rfl
@[simp] theorem windowReg_ctrl : windowReg cfg 0x004 = .ctrl := rfl
@[simp] theorem windowReg_status : windowReg cfg 0x008 = .status := rfl
@[simp] theorem windowReg_cmd : windowReg cfg 0x00C = .cmd := rfl
@[simp] theorem windowReg_arg : windowReg cfg 0x010 = .arg := rfl

/-- The BUF window: bus word k stands at 0x400 + 4k (R41). -/
theorem windowReg_buf {k : Nat} (h : k < cfg.nb / 4) : windowReg cfg (0x400 + 4 * k) = .buf k := by
  have := cfg.nb_mod
  have e : (0x400 + 4 * k - bufOffset) / 4 = k := by unfold bufOffset; omega
  have hk : bufOffset ≤ 0x400 + 4 * k ∧ 0x400 + 4 * k < bufOffset + cfg.nb ∧ (0x400 + 4 * k) % 4 = 0 := by
    unfold bufOffset
    omega
  have h0 : ¬ 0x400 + 4 * k = 0x000 := by omega
  have h1 : ¬ 0x400 + 4 * k = 0x004 := by omega
  have h2 : ¬ 0x400 + 4 * k = 0x008 := by omega
  have h3 : ¬ 0x400 + 4 * k = 0x00C := by omega
  have h4 : ¬ 0x400 + 4 * k = 0x010 := by omega
  rw [windowReg, if_neg h0, if_neg h1, if_neg h2, if_neg h3, if_neg h4, if_pos hk, e]

/-- A word of the BUF window lies at its own offset, inside BUF (R41). -/
theorem windowReg_eq_buf {off k : Nat} (h : windowReg cfg off = .buf k) : off = 0x400 + 4 * k ∧ k < cfg.nb / 4 := by
  have := cfg.nb_mod
  unfold windowReg bufOffset at h
  split_ifs at h with _ _ _ _ _ h6
  cases h
  omega

/-- An aligned offset is one of the five registers, a word of BUF, or reserved (R41). -/
theorem windowReg_reserved {off : Nat} (h0 : off ≠ 0x000) (h1 : off ≠ 0x004) (h2 : off ≠ 0x008) (h3 : off ≠ 0x00C)
    (h4 : off ≠ 0x010) (h5 : ∀ k, k < cfg.nb / 4 → off ≠ 0x400 + 4 * k) : windowReg cfg off = .reserved := by
  rw [windowReg, if_neg h0, if_neg h1, if_neg h2, if_neg h3, if_neg h4, if_neg]
  rintro ⟨hlo, hhi, hmod⟩
  unfold bufOffset at hlo hhi
  have := cfg.nb_mod
  exact h5 ((off - 0x400) / 4) (by omega) (by omega)

end map

section accesses

variable {cfg : Config} (b : Block cfg) (v : Word)

/-- A dropped or a performed write (R48). -/
theorem Block.unlessBusy_idle {b' : Block cfg} (h : b.pending = none) : b.unlessBusy b' = b' := by
  simp [Block.unlessBusy, Block.busy, h]

theorem Block.unlessBusy_busy {b' : Block cfg} (h : b.pending ≠ none) : b.unlessBusy b' = b.dropWrite := by
  simp [Block.unlessBusy, Block.busy, Option.isSome_iff_ne_none.mpr h]

@[simp] theorem Block.memWrite_param : b.memWrite 0x000 v = b := rfl
@[simp] theorem Block.memWrite_ctrl : b.memWrite 0x004 v = b.writeCtrl v := rfl
@[simp] theorem Block.memWrite_status : b.memWrite 0x008 v = b.ackStatus v := rfl
@[simp] theorem Block.memWrite_cmd : b.memWrite 0x00C v = b.unlessBusy (b.accept v) := rfl
@[simp] theorem Block.memWrite_arg : b.memWrite 0x010 v = b.unlessBusy (b.setArg v) := rfl

theorem Block.memWrite_buf {k : Nat} (h : k < cfg.nb / 4) :
    b.memWrite (0x400 + 4 * k) v = b.unlessBusy (b.setBuf (b.buf.writeBusWord k v)) := by
  simp [Block.memWrite, windowReg_buf cfg h]

theorem Block.memWrite_reserved {off : Nat} (h : windowReg cfg off = .reserved) : b.memWrite off v = b := by
  simp [Block.memWrite, h]

theorem Block.memRead_buf {k : Nat} (h : k < cfg.nb / 4) : b.memRead (0x400 + 4 * k) = b.buf.busWord k := by
  simp [Block.memRead, windowReg_buf cfg h]

theorem Block.memRead_reserved {off : Nat} (h : windowReg cfg off = .reserved) : b.memRead off = 0 := by
  simp [Block.memRead, h]

/-- Everything a write can do to a block (R44): nothing, a reset, IE, the two W1C bits, the OVERRUN of a dropped write,
or, at an idle block, an acceptance, ARG or one word of BUF. -/
theorem Block.memWrite_cases (off : Nat) :
    b.memWrite off v = b ∨
    (off = 0x004 ∧ v.getLsbD 1 = true ∧ b.memWrite off v = Block.reset cfg) ∨
    (off = 0x004 ∧ v.getLsbD 1 = false ∧ b.memWrite off v = { b with ie := v.getLsbD 0 }) ∨
    (off = 0x008 ∧ b.memWrite off v = b.ackStatus v) ∨
    (b.pending ≠ none ∧ b.memWrite off v = b.dropWrite) ∨
    (off = 0x00C ∧ b.pending = none ∧ b.memWrite off v = b.accept v) ∨
    (off = 0x010 ∧ b.pending = none ∧ b.memWrite off v = b.setArg v) ∨
    (∃ k, off = 0x400 + 4 * k ∧ k < cfg.nb / 4 ∧ b.pending = none ∧
      b.memWrite off v = b.setBuf (b.buf.writeBusWord k v)) := by
  by_cases h0 : off = 0x000
  · exact .inl (by rw [h0]; rfl)
  by_cases h1 : off = 0x004
  · subst h1
    cases hv : v.getLsbD 1
    · exact .inr (.inr (.inl ⟨rfl, rfl, by rw [Block.memWrite_ctrl, Block.writeCtrl, hv]; rfl⟩))
    · exact .inr (.inl ⟨rfl, rfl, by rw [Block.memWrite_ctrl, Block.writeCtrl, hv]; rfl⟩)
  by_cases h2 : off = 0x008
  · exact .inr (.inr (.inr (.inl ⟨h2, by rw [h2]; rfl⟩)))
  by_cases h3 : off = 0x00C
  · subst h3
    by_cases hb : b.pending = none
    · exact .inr (.inr (.inr (.inr (.inr (.inl ⟨rfl, hb, by simp [b.unlessBusy_idle hb]⟩)))))
    · exact .inr (.inr (.inr (.inr (.inl ⟨hb, by simp [b.unlessBusy_busy hb]⟩))))
  by_cases h4 : off = 0x010
  · subst h4
    by_cases hb : b.pending = none
    · exact .inr (.inr (.inr (.inr (.inr (.inr (.inl ⟨rfl, hb, by simp [b.unlessBusy_idle hb]⟩))))))
    · exact .inr (.inr (.inr (.inr (.inl ⟨hb, by simp [b.unlessBusy_busy hb]⟩))))
  by_cases h5 : ∃ k, k < cfg.nb / 4 ∧ off = 0x400 + 4 * k
  · obtain ⟨k, hk, rfl⟩ := h5
    rw [Block.memWrite_buf b v hk]
    by_cases hb : b.pending = none
    · exact .inr (.inr (.inr (.inr (.inr (.inr (.inr ⟨k, rfl, hk, hb, by simp [b.unlessBusy_idle hb]⟩))))))
    · exact .inr (.inr (.inr (.inr (.inl ⟨hb, by simp [b.unlessBusy_busy hb]⟩))))
  · exact .inl (Block.memWrite_reserved b v (windowReg_reserved cfg h0 h1 h2 h3 h4 (fun k hk e => h5 ⟨k, hk, e⟩)))

end accesses

section hostAccess

variable (s : State) (a : BusAccess)

/-- An access is performed when it reaches the window and is legal (R40, R45). -/
theorem BusAccess.performed_iff (cfg : Config) : a.performed cfg = true ↔
    (cfg.base ≤ a.addr ∧ a.addr < cfg.base + cfg.window) ∧
      a.width = .bits32 ∧ a.lanes = 0b1111 ∧ (a.addr - cfg.base) % 4 = 0 := by
  simp only [BusAccess.performed, inWindow, BusAccess.legal, Bool.and_eq_true, decide_eq_true_eq, beq_iff_eq]
  tauto

/-- What a performed access does (R43, R44). -/
theorem State.hostAccess_performed (h : a.performed s.cfg = true) :
    s.hostAccess a = match a.kind with
      | .read => .next (s.logRead (s.block.memRead (a.addr - s.cfg.base)))
      | .write v => .next (s.withBlock (s.block.memWrite (a.addr - s.cfg.base) v)) := by
  simp only [BusAccess.performed, Bool.and_eq_true] at h
  cases hk : a.kind <;> simp [State.hostAccess, h.1, h.2, hk]

/-- An access goes on only if it is performed (R45). -/
theorem State.hostAccess_next {t : State} (h : s.hostAccess a = .next t) : a.performed s.cfg = true := by
  unfold State.hostAccess at h
  cases h1 : inWindow s.cfg a.addr <;> cases h2 : a.legal s.cfg <;> simp_all [BusAccess.performed]

end hostAccess

end Sys2Proof.Machine
end

