-- ==== Sys2Proof/Laws/Datapath.lean ====
section
/-! SUPPORT. What the loops of the datapaths keep: the word-serial adder, subtractor and comparator (41_add_sub.md,
40_conversion.md R85), trial subtraction and MulRed's iteration (42_modmul.md R120), and FROMB's byte loop. -/

namespace Sys2Proof.Machine

section wordView

variable (w a b : Nat)

/-- The value of the words below `j + 1` is that of the words below `j` and of word `j` (10_state.md R21). -/
theorem mod_word_succ (j v : Nat) : v % 2 ^ ((j + 1) * w) = v % 2 ^ (j * w) + wordAt w j v * 2 ^ (j * w) := by
  rw [wordAt, Nat.add_mul, one_mul, Nat.pow_add, Nat.mod_mul]
  ring

theorem wordAt_lt (j v : Nat) : wordAt w j v < 2 ^ w := Nat.mod_lt _ (Nat.two_pow_pos w)

theorem mod_lt_word (j v : Nat) : v % 2 ^ (j * w) < 2 ^ (j * w) := Nat.mod_lt _ (Nat.two_pow_pos _)

/-- R100's loop: with `r` and the carry standing for the sum of the words below `j`, the final value is the sum of the
words below `j + k` with the last carry dropped. -/
theorem addWords_eq (k j c r : Nat) (h : r + c * 2 ^ (j * w) = a % 2 ^ (j * w) + b % 2 ^ (j * w))
    (hr : r < 2 ^ (j * w)) :
    addWords w a b k j c r = (a % 2 ^ ((j + k) * w) + b % 2 ^ ((j + k) * w)) % 2 ^ ((j + k) * w) := by
  induction k generalizing j c r with
  | zero => rw [addWords, Nat.add_zero, ← h, Nat.add_mul_mod_self_right, Nat.mod_eq_of_lt hr]
  | succ k ih =>
    rw [addWords, show j + (k + 1) = j + 1 + k by omega]
    set sum := wordAt w j a + wordAt w j b + c with hsum
    have hs := Nat.mod_add_div sum (2 ^ w)
    have hlt : sum % 2 ^ w < 2 ^ w := Nat.mod_lt _ (Nat.two_pow_pos w)
    apply ih
    · rw [mod_word_succ, mod_word_succ, Nat.add_mul j 1 w, one_mul, Nat.pow_add]
      calc r + sum % 2 ^ w * 2 ^ (j * w) + sum / 2 ^ w * (2 ^ (j * w) * 2 ^ w)
          = r + (sum % 2 ^ w + 2 ^ w * (sum / 2 ^ w)) * 2 ^ (j * w) := by ring
        _ = (r + c * 2 ^ (j * w)) + (wordAt w j a + wordAt w j b) * 2 ^ (j * w) := by rw [hs, hsum]; ring
        _ = _ := by rw [h]; ring
    · rw [Nat.add_mul j 1 w, one_mul, Nat.pow_add]
      calc r + sum % 2 ^ w * 2 ^ (j * w) < 2 ^ (j * w) + sum % 2 ^ w * 2 ^ (j * w) := by omega
        _ = (sum % 2 ^ w + 1) * 2 ^ (j * w) := by ring
        _ ≤ 2 ^ w * 2 ^ (j * w) := Nat.mul_le_mul_right _ hlt
        _ = 2 ^ (j * w) * 2 ^ w := Nat.mul_comm _ _

/-- R101's loop: with `r` and the borrow standing for the difference of the words below `j`, the result stands for the
difference of the words below `j + k`. -/
theorem subWords_eq (k j : Nat) (brw : Bool) (r : Nat)
    (h : (r : ℤ) = (a % 2 ^ (j * w) : ℕ) - (b % 2 ^ (j * w) : ℕ) + brw.toNat * 2 ^ (j * w))
    (hr : r < 2 ^ (j * w)) :
    ((subWords w a b k j brw r).1 : ℤ) = (a % 2 ^ ((j + k) * w) : ℕ) - (b % 2 ^ ((j + k) * w) : ℕ) +
      (subWords w a b k j brw r).2.toNat * 2 ^ ((j + k) * w) ∧
    (subWords w a b k j brw r).1 < 2 ^ ((j + k) * w) := by
  induction k generalizing j brw r with
  | zero => exact ⟨by simpa [subWords] using h, by simpa [subWords] using hr⟩
  | succ k ih =>
    rw [show j + (k + 1) = j + 1 + k by omega]
    unfold subWords
    set d : ℤ := wordAt w j a - wordAt w j b - brw.toNat with hd
    have ha := wordAt_lt w j a
    have hb := wordAt_lt w j b
    have hbrw : brw.toNat ≤ 1 := by cases brw <;> simp
    have ea : ((a % 2 ^ ((j + 1) * w) : ℕ) : ℤ) = (a % 2 ^ (j * w) : ℕ) + wordAt w j a * 2 ^ (j * w) := by
      rw [mod_word_succ]; push_cast; ring
    have eb : ((b % 2 ^ ((j + 1) * w) : ℕ) : ℤ) = (b % 2 ^ (j * w) : ℕ) + wordAt w j b * 2 ^ (j * w) := by
      rw [mod_word_succ]; push_cast; ring
    have ep : (2 : ℤ) ^ ((j + 1) * w) = 2 ^ w * 2 ^ (j * w) := by rw [Nat.add_mul, one_mul, pow_add]; ring
    have bound (x : ℕ) (hx : x < 2 ^ w) : r + x * 2 ^ (j * w) < 2 ^ ((j + 1) * w) := by
      rw [Nat.add_mul j 1 w, one_mul, Nat.pow_add]
      calc r + x * 2 ^ (j * w) < 2 ^ (j * w) + x * 2 ^ (j * w) := by omega
        _ = (x + 1) * 2 ^ (j * w) := by ring
        _ ≤ 2 ^ w * 2 ^ (j * w) := Nat.mul_le_mul_right _ hx
        _ = 2 ^ (j * w) * 2 ^ w := Nat.mul_comm _ _
    have hcast : ((2 ^ w : ℕ) : ℤ) = 2 ^ w := by push_cast; rfl
    by_cases hneg : d < 0
    · rw [if_pos hneg]
      have hnn : 0 ≤ d + 2 ^ w := by rw [← hcast]; omega
      have hx : (d + 2 ^ w).toNat < 2 ^ w := by
        have : d + 2 ^ w < ((2 ^ w : ℕ) : ℤ) := by rw [hcast]; omega
        omega
      apply ih _ _ _ _ (bound _ hx)
      rw [ea, eb, Bool.toNat_true, ep, Nat.cast_add, Nat.cast_mul, Int.toNat_of_nonneg hnn]
      push_cast at h ⊢
      linear_combination h + 2 ^ (j * w) * hd
    · rw [if_neg hneg]
      have hnn : 0 ≤ d := by omega
      have hx : d.toNat < 2 ^ w := by omega
      apply ih _ _ _ _ (bound _ hx)
      rw [ea, eb, Bool.toNat_false, Nat.cast_add, Nat.cast_mul, Int.toNat_of_nonneg hnn]
      push_cast at h ⊢
      linear_combination h + 2 ^ (j * w) * hd

/-- R85's loop: the order of the words below `k`. -/
theorem compareWords_eq (k : Nat) : compareWords w a b k =
    if a % 2 ^ (k * w) < b % 2 ^ (k * w) then cmpLess
    else if a % 2 ^ (k * w) = b % 2 ^ (k * w) then cmpEqual else cmpGreater := by
  induction k with
  | zero => simp [compareWords, Nat.mod_one]
  | succ j ih =>
    rw [compareWords, mod_word_succ, mod_word_succ]
    have ha := mod_lt_word w j a
    have hb := mod_lt_word w j b
    have lift {x y x' y' p : ℕ} (hx' : x' < p) (hxy : x < y) : x' + x * p < y' + y * p := by
      calc x' + x * p < p + x * p := by omega
        _ = (x + 1) * p := by ring
        _ ≤ y * p := Nat.mul_le_mul_right _ hxy
        _ ≤ y' + y * p := Nat.le_add_left _ _
    by_cases hgt : wordAt w j a > wordAt w j b
    · have := lift (y' := a % 2 ^ (j * w)) hb hgt
      rw [if_pos hgt, if_neg (by omega), if_neg (by omega)]
    · rw [if_neg hgt]
      by_cases hlt : wordAt w j a < wordAt w j b
      · have := lift (y' := b % 2 ^ (j * w)) ha hlt
        rw [if_pos hlt, if_pos this]
      · have e : wordAt w j a = wordAt w j b := by omega
        rw [if_neg hlt, ih, e]
        simp only [Nat.add_lt_add_iff_right, Nat.add_right_cancel_iff]

end wordView

section reduction

/-- Trial subtraction to the end is the remainder (42_modmul.md R120). -/
theorem trialSubtract_eq (m : Nat) (hm : 0 < m) (fuel t : Nat) (h : t ≤ fuel) : trialSubtract m fuel t = t % m := by
  induction fuel generalizing t with
  | zero =>
    obtain rfl : t = 0 := by omega
    simp [trialSubtract]
  | succ fuel ih =>
    unfold trialSubtract
    split_ifs with hle
    · rw [ih _ (by omega), ← Nat.mod_eq_sub_mod hle]
    · rw [Nat.mod_eq_of_lt (by omega)]

theorem reduceMod_eq (m t : Nat) (hm : 0 < m) : reduceMod m t = t % m := trialSubtract_eq m hm t t le_rfl

/-- Below twice the modulus one subtraction suffices (R120). -/
theorem trialSubtract_once (m t : Nat) (h : t < 2 * m) : trialSubtract m 1 t = t % m := by
  unfold trialSubtract
  split_ifs with hle
  · rw [Nat.mod_eq_sub_mod hle, Nat.mod_eq_of_lt (by omega)]; rfl
  · rw [Nat.mod_eq_of_lt (by omega)]

/-- One iteration of MulRed: t becomes (2t + a * bit) mod m (42_modmul.md R121). -/
theorem mulRedStep_eq (a m t : Nat) (bitSet : Bool) (hm : 0 < m) :
    mulRedStep a m bitSet t = (2 * t + a * bitSet.toNat) % m := by
  unfold mulRedStep
  cases bitSet
  · simp [reduceMod_eq _ _ hm, two_mul]
  · simp [reduceMod_eq _ _ hm, two_mul, Nat.mod_add_mod]

/-- A bit string cut at bit i: the bits above it and the bit itself. -/
theorem div_two_pow_succ (b i : Nat) : b / 2 ^ i = 2 * (b / 2 ^ (i + 1)) + (b.testBit i).toNat := by
  rw [Nat.pow_succ, ← Nat.div_div_eq_div_mul, Nat.toNat_testBit]
  omega

/-- One iteration of MulRed moves its accumulator from a * (b div 2^(i+1)) to a * (b div 2^i), modulo m (R121). -/
theorem mulRedStep_invariant (a b m i : Nat) (hm : 0 < m) :
    mulRedStep a m (b.testBit i) (a * (b / 2 ^ (i + 1)) % m) = a * (b / 2 ^ i) % m := by
  rw [mulRedStep_eq _ _ _ _ hm, div_two_pow_succ b i, Nat.add_mod, Nat.mul_mod_mod, ← Nat.add_mod]
  congr 1
  ring

end reduction

section bytes

/-- One more byte of FROMB's loop (40_conversion.md R81). -/
theorem fromBytes_succ (m : Memory) (len : Nat) :
    fromBytes m (len + 1) = fromBytes m len * 256 + (m.read len).toNat := by
  simp [fromBytes, List.range_succ]

@[simp] theorem fromBytes_zero (m : Memory) : fromBytes m 0 = 0 := rfl

/-- The value of `len` bytes is below 256^len (R81). -/
theorem fromBytes_lt (m : Memory) (len : Nat) : fromBytes m len < 256 ^ len := by
  induction len with
  | zero => simp
  | succ len ih =>
    have := (m.read len).isLt
    rw [fromBytes_succ, Nat.pow_succ]
    omega

end bytes

end Sys2Proof.Machine
end

