-- ==== Sys2Proof/Laws/Encoding.lean ====
section
/-! SUPPORT. The fields of the words the encoder writes, and the words given by their fields (30_encoding.md R61). -/

namespace Sys2Proof

section commandWords

variable (op : BitVec 8) (rd rs1 rs2 rs3 : Reg)

/-- The bits of a command word, field by field (R61). -/
theorem getLsbD_commandWord (n : Nat) :
    (commandWord op rd rs1 rs2 rs3).getLsbD n =
      if n < 8 then op.getLsbD n else if n < 12 then rd.val.testBit (n - 8) else
        if n < 16 then rs1.val.testBit (n - 12) else if n < 20 then rs2.val.testBit (n - 16) else
          if n < 24 then rs3.val.testBit (n - 20) else false := by
  show BitVec.getLsbD (w := 8 + 4 + 4 + 4 + 4 + 8) (_ ++ _ ++ _ ++ _ ++ _ ++ _) n = _
  simp only [BitVec.getLsbD_append, Nat.sub_sub]
  simp only [BitVec.getLsbD, BitVec.toNat_ofFin]
  split_ifs <;> first | omega | simp

@[simp] theorem opField_commandWord : opField (commandWord op rd rs1 rs2 rs3) = op := by
  apply BitVec.eq_of_getLsbD_eq
  intro n hn
  rw [opField, BitVec.getLsbD_extractLsb', getLsbD_commandWord]
  simp [hn]

@[simp] theorem reservedField_commandWord : reservedField (commandWord op rd rs1 rs2 rs3) = 0 := by
  apply BitVec.eq_of_getLsbD_eq
  intro n hn
  rw [reservedField, BitVec.getLsbD_extractLsb', getLsbD_commandWord]
  interval_cases n <;> rfl

/-- A register field holds the register whose bits stand there. -/
theorem regField_eq {w : Word} {lo : Nat} {r : Reg} (h : ∀ n < 4, w.getLsbD (lo + n) = r.val.testBit n) :
    (w.extractLsb' lo 4).toFin = r := by
  have e : w.extractLsb' lo 4 = (BitVec.ofFin r : BitVec 4) := by
    apply BitVec.eq_of_getLsbD_eq
    intro n hn
    rw [BitVec.getLsbD_extractLsb', h n hn]
    simp [hn, BitVec.getLsbD]
  rw [e]

@[simp] theorem rdField_commandWord : rdField (commandWord op rd rs1 rs2 rs3) = rd :=
  regField_eq fun n hn => by rw [getLsbD_commandWord]; interval_cases n <;> rfl

@[simp] theorem rs1Field_commandWord : rs1Field (commandWord op rd rs1 rs2 rs3) = rs1 :=
  regField_eq fun n hn => by rw [getLsbD_commandWord]; interval_cases n <;> rfl

@[simp] theorem rs2Field_commandWord : rs2Field (commandWord op rd rs1 rs2 rs3) = rs2 :=
  regField_eq fun n hn => by rw [getLsbD_commandWord]; interval_cases n <;> rfl

@[simp] theorem rs3Field_commandWord : rs3Field (commandWord op rd rs1 rs2 rs3) = rs3 :=
  regField_eq fun n hn => by rw [getLsbD_commandWord]; interval_cases n <;> rfl

/-- A word is put together from its fields: its six fields leave no bit out (R61). -/
theorem commandWord_fields (w : Word) (h : reservedField w = 0) :
    commandWord (opField w) (rdField w) (rs1Field w) (rs2Field w) (rs3Field w) = w := by
  apply BitVec.eq_of_getLsbD_eq
  intro n hn
  have key : ∀ lo k, k < 4 → ((w.extractLsb' lo 4).toFin : Fin (2 ^ 4)).val.testBit k = w.getLsbD (lo + k) := by
    intro lo k hk
    have := BitVec.getLsbD_extractLsb' (start := lo) (len := 4) (x := w) (i := k)
    simpa [hk, BitVec.getLsbD] using this
  have hres : 24 ≤ n → w.getLsbD n = false := by
    intro h24
    have := congrArg (fun v => v.getLsbD (n - 24)) h
    simp only [reservedField, BitVec.getLsbD_extractLsb'] at this
    rw [show 24 + (n - 24) = n by omega] at this
    simpa [show n - 24 < 8 by omega] using this
  rw [getLsbD_commandWord]
  split_ifs with h1 h2 h3 h4 h5
  · simp [opField, h1]
  · rw [rdField, key 8 (n - 8) (by omega)]; congr 1; omega
  · rw [rs1Field, key 12 (n - 12) (by omega)]; congr 1; omega
  · rw [rs2Field, key 16 (n - 16) (by omega)]; congr 1; omega
  · rw [rs3Field, key 20 (n - 20) (by omega)]; congr 1; omega
  · exact (hres (by omega)).symm

end commandWords

/-- What the last check of R61 answers. -/
theorem unusedZero_eq_ok {unused : List Reg} {i j : Instr} :
    unusedZero unused i = .ok j ↔ (∀ r ∈ unused, r = 0) ∧ i = j := by
  unfold unusedZero
  split_ifs with h
  · simp only [List.all_eq_true, beq_iff_eq] at h
    simp only [Except.ok.injEq]
    exact ⟨fun e => ⟨h, e⟩, fun e => e.2⟩
  · simp only [List.all_eq_true, beq_iff_eq] at h
    simp only [false_iff]
    exact fun e => h e.1

/-- `decode` and `decodeWord` accept the same words. -/
theorem decode_eq_instr {w : Word} {i : Instr} : decode w = .instr i ↔ decodeWord w = .ok i := by
  unfold decode
  cases decodeWord w <;> simp

theorem decode_eq_illegal {w : Word} : decode w = .illegal ↔ ∃ r, decodeWord w = .error r := by
  unfold decode
  cases decodeWord w <;> simp

end Sys2Proof
end

