-- ==== Sys2Proof/Laws/Exec.lean ====
section
/-! SUPPORT. What a command can do, said once: the completion of each one, and what any of them leaves unchanged
(60_exceptions.md R160, R163); and blocks of two word sizes
that hold the same values (00_scope.md R8). -/

namespace Sys2Proof.Machine

section completion

variable {cfg : Config} (s : State)

/-- A completion always goes on (R160). -/
theorem State.complete_eq (r : ExecResult s.cfg) : s.complete r = .next (s.withBlock (s.block.complete r)) := rfl

@[simp] theorem Block.complete_ok (b b' : Block cfg) : b.complete (.ok b') = b'.completeOk := rfl

@[simp] theorem Block.complete_error (b : Block cfg) (e : ErrorCode) : b.complete (.error e) = b.completeError e := rfl

/-- The writes a command may make to a block before it completes, by the columns of 30_encoding.md R62. -/
structure WritesOnly (i : Instr) (b b' : Block cfg) : Prop where
  reg : ∀ j : Reg, destination i ≠ some j → b'.reg j = b.reg j
  buf : (∀ rs1, i ≠ .tob rs1) → b'.buf = b.buf
  bufTail : ∀ k, b.argLength ≤ k → b'.buf.read k = b.buf.read k
  bufWf : b.buf.wf cfg.nb → b'.buf.wf cfg.nb
  borrow : (∀ rd rs1 rs2, i ≠ .sub rd rs1 rs2) → b'.borrow = b.borrow
  cmp : (∀ rs1 rs2, i ≠ .cmp rs1 rs2) → b'.cmp = b.cmp
  cmpLegal : b.cmp ≠ 0b11 → b'.cmp ≠ 0b11
  arg : b'.arg = b.arg
  cmd : b'.cmd = b.cmd
  ie : b'.ie = b.ie
  overrun : b'.overrun = b.overrun

/-- A write of the destination register alone. -/
theorem WritesOnly.ofSetReg {i : Instr} {b : Block cfg} {rd : Reg} (h : destination i = some rd)
    (v : BitVec cfg.width) : WritesOnly i b (b.setReg rd v) where
  reg := fun j hj => Block.reg_setReg_other b v (fun e => hj (by rw [h, e]))
  buf := fun _ => rfl
  bufTail := fun _ _ => rfl
  bufWf := id
  borrow := fun _ => rfl
  cmp := fun _ => rfl
  cmpLegal := id
  arg := rfl
  cmd := rfl
  ie := rfl
  overrun := rfl

/-- The comparator answers one of its three codes (40_conversion.md R85). -/
theorem compareWords_mem (w a b k : Nat) :
    compareWords w a b k = cmpEqual ∨ compareWords w a b k = cmpLess ∨ compareWords w a b k = cmpGreater := by
  induction k with
  | zero => exact .inl rfl
  | succ j ih =>
    unfold compareWords
    split_ifs
    · exact .inr (.inr rfl)
    · exact .inr (.inl rfl)
    · exact ih

/-- Everything a command can do: it completes, with an error that writes nothing, or with its own writes only. -/
theorem exec_cases (i : Instr) :
    (∃ e : ErrorCode, exec i s = .next (s.withBlock (s.block.completeError e))) ∨
    (∃ b : Block s.cfg, exec i s = .next (s.withBlock b.completeOk) ∧ WritesOnly i s.block b) := by
  cases i with
  | fromb rd =>
    by_cases h : s.cfg.nb < s.block.argLength
    · exact .inl ⟨.invalidLength, by simp [exec, execFromb, h, State.complete_eq]⟩
    · exact .inr ⟨_, by simp only [exec, execFromb, h, if_false, State.complete_eq, Block.complete_ok]; rfl,
        WritesOnly.ofSetReg rfl _⟩
  | tob rs1 =>
    by_cases h : s.cfg.nb < s.block.argLength
    · exact .inl ⟨.invalidLength, by simp [exec, execTob, h, State.complete_eq]⟩
    · refine .inr ⟨_, by simp only [exec, execTob, h, if_false, State.complete_eq, Block.complete_ok]; rfl, ?_⟩
      exact
        { reg := fun _ _ => rfl
          buf := fun hne => absurd rfl (hne rs1)
          bufTail := fun k hk => by simp [read_toBytes]; omega
          bufWf := fun hw => wf_toBytes _ _ _ _ hw (by omega)
          borrow := fun _ => rfl
          cmp := fun _ => rfl
          cmpLegal := id
          arg := rfl
          cmd := rfl
          ie := rfl
          overrun := rfl }
  | ldi rd => exact .inr ⟨_, rfl, WritesOnly.ofSetReg rfl _⟩
  | clr rd => exact .inr ⟨_, rfl, WritesOnly.ofSetReg rfl _⟩
  | mov rd rs1 => exact .inr ⟨_, rfl, WritesOnly.ofSetReg rfl _⟩
  | add rd rs1 rs2 => exact .inr ⟨_, rfl, WritesOnly.ofSetReg rfl _⟩
  | sub rd rs1 rs2 =>
    refine .inr ⟨_, rfl, ?_⟩
    exact
      { WritesOnly.ofSetReg (i := .sub rd rs1 rs2) (b := s.block) rfl
          (bigintSubtractor s.cfg (s.block.reg rs1) (s.block.reg rs2)).1 with
        borrow := fun hne => absurd rfl (hne rd rs1 rs2) }
  | cmp rs1 rs2 =>
    refine .inr ⟨_, rfl, ?_⟩
    exact
      { reg := fun _ _ => rfl
        buf := fun _ => rfl
        bufTail := fun _ _ => rfl
        bufWf := id
        borrow := fun _ => rfl
        cmp := fun hne => absurd rfl (hne rs1 rs2)
        cmpLegal := fun _ => by
          rcases compareWords_mem s.cfg.w (s.block.reg rs1).toNat (s.block.reg rs2).toNat s.cfg.n with h | h | h <;>
            simp [bigintComparator, h, cmpEqual, cmpLess, cmpGreater]
        arg := rfl
        cmd := rfl
        ie := rfl
        overrun := rfl }
  | modmul rd rs1 rs2 rs3 =>
    by_cases h : s.block.reg rs3 = 0
    · exact .inl ⟨.divideByZero, by simp [exec, execModmul, h, State.complete_eq]⟩
    · by_cases h' : s.block.reg rs3 ≤ s.block.reg rs1 ∨ s.block.reg rs3 ≤ s.block.reg rs2
      · exact .inl ⟨.operandRange, by simp only [exec, execModmul, h, h', if_false, if_true, State.complete_eq,
          Block.complete_error]⟩
      · exact .inr ⟨_, by simp only [exec, execModmul, h, h', if_false, State.complete_eq, Block.complete_ok]; rfl,
          WritesOnly.ofSetReg rfl _⟩
  | modexp rd rs1 rs2 rs3 =>
    by_cases h : s.block.reg rs3 = 0
    · exact .inl ⟨.divideByZero, by simp [exec, execModexp, h, State.complete_eq]⟩
    · exact .inr ⟨_, by simp only [exec, execModexp, h, if_false, State.complete_eq, Block.complete_ok]; rfl,
        WritesOnly.ofSetReg rfl _⟩

/-- A command is a function of the block alone (90_conflicts.md C8), and of its data only: IE, OVERRUN and the life
cycle's own bits pass through it. -/
theorem exec_eq_blockFunction (cfg : Config) (i : Instr) : ∃ f : Block cfg → Block cfg,
    (∀ b events reads, exec i ⟨cfg, b, events, reads⟩ = .next ⟨cfg, f b, events, reads⟩) ∧
    (∀ (b : Block cfg) (ie overrun done : Bool) (errcode : BitVec 4) (pending : Option Command),
      f { b with ie := ie, overrun := overrun, done := done, errcode := errcode, pending := pending } =
        { f b with ie := ie, overrun := overrun }) := by
  cases i with
  | fromb rd =>
    refine ⟨fun b => b.complete (if cfg.nb < b.argLength then .error .invalidLength
      else .ok (b.setReg rd (BitVec.ofNat cfg.width (fromBytes b.buf b.argLength)))), fun _ _ _ => rfl, fun b _ _ _ _ _ => ?_⟩
    by_cases h : cfg.nb < b.arg.toNat <;> simp only [h, if_true, if_false] <;> rfl
  | tob rs1 =>
    refine ⟨fun b => b.complete (if cfg.nb < b.argLength then .error .invalidLength
      else .ok (b.setBuf (toBytes b.buf (b.reg rs1).toNat b.argLength))), fun _ _ _ => rfl, fun b _ _ _ _ _ => ?_⟩
    by_cases h : cfg.nb < b.arg.toNat <;> simp only [h, if_true, if_false] <;> rfl
  | ldi rd => exact ⟨fun b => (b.setReg rd b.argValue).completeOk, fun _ _ _ => rfl, fun _ _ _ _ _ _ => rfl⟩
  | clr rd => exact ⟨fun b => (b.setReg rd 0).completeOk, fun _ _ _ => rfl, fun _ _ _ _ _ _ => rfl⟩
  | mov rd rs1 => exact ⟨fun b => (b.setReg rd (b.reg rs1)).completeOk, fun _ _ _ => rfl, fun _ _ _ _ _ _ => rfl⟩
  | add rd rs1 rs2 =>
    exact ⟨fun b => (b.setReg rd (bigintAdder cfg (b.reg rs1) (b.reg rs2))).completeOk, fun _ _ _ => rfl,
      fun _ _ _ _ _ _ => rfl⟩
  | sub rd rs1 rs2 =>
    exact ⟨fun b => ((b.setReg rd (bigintSubtractor cfg (b.reg rs1) (b.reg rs2)).1).setBorrow
      (bigintSubtractor cfg (b.reg rs1) (b.reg rs2)).2).completeOk, fun _ _ _ => rfl, fun _ _ _ _ _ _ => rfl⟩
  | cmp rs1 rs2 =>
    exact ⟨fun b => (b.setCmp (bigintComparator cfg (b.reg rs1) (b.reg rs2))).completeOk, fun _ _ _ => rfl,
      fun _ _ _ _ _ _ => rfl⟩
  | modmul rd rs1 rs2 rs3 =>
    refine ⟨fun b => b.complete (if b.reg rs3 = 0 then .error .divideByZero
      else if b.reg rs3 ≤ b.reg rs1 ∨ b.reg rs3 ≤ b.reg rs2 then .error .operandRange
      else .ok (b.setReg rd (BitVec.ofNat cfg.width
        (mulRed cfg.width (b.reg rs1).toNat (b.reg rs2).toNat (b.reg rs3).toNat)))), fun _ _ _ => rfl,
      fun b _ _ _ _ _ => ?_⟩
    by_cases h : b.regs[rs3] = 0
    · simp only [Block.reg, h, if_true]; rfl
    · by_cases h' : b.regs[rs3] ≤ b.regs[rs1] ∨ b.regs[rs3] ≤ b.regs[rs2] <;>
        simp only [Block.reg, h, h', if_true, if_false] <;> rfl
  | modexp rd rs1 rs2 rs3 =>
    refine ⟨fun b => b.complete (if b.reg rs3 = 0 then .error .divideByZero
      else .ok (b.setReg rd (BitVec.ofNat cfg.width
        (expMod cfg.width (b.reg rs1).toNat (b.reg rs2).toNat (b.reg rs3).toNat)))), fun _ _ _ => rfl,
      fun b _ _ _ _ _ => ?_⟩
    by_cases h : b.regs[rs3] = 0 <;> simp only [Block.reg, h, if_true, if_false] <;> rfl

end completion

/-! ### Blocks of two word sizes that hold the same values (00_scope.md R8) -/

section sameValues

variable {c c' : Config} {b : Block c} {b' : Block c'} (h : b.SameValues b')
include h

/-- Equal values written to one register. -/
theorem Block.SameValues.setReg (rd : Reg) {v : BitVec c.width} {v' : BitVec c'.width} (hv : v.toNat = v'.toNat) :
    (b.setReg rd v).SameValues (b'.setReg rd v') :=
  { h with
    regs := fun j => by
      by_cases e : j = rd
      · rw [e, Block.reg_setReg_same, Block.reg_setReg_same, hv]
      · rw [Block.reg_setReg_other b v e, Block.reg_setReg_other b' v' e, h.regs j] }

theorem Block.SameValues.setBuf (m : Memory) : (b.setBuf m).SameValues (b'.setBuf m) := { h with buf := rfl }

theorem Block.SameValues.setCmp (v : BitVec 2) : (b.setCmp v).SameValues (b'.setCmp v) := { h with cmp := rfl }

theorem Block.SameValues.setBorrow (v : Bool) : (b.setBorrow v).SameValues (b'.setBorrow v) := { h with borrow := rfl }

theorem Block.SameValues.completeOk : b.completeOk.SameValues b'.completeOk :=
  { h with done := rfl, errcode := rfl, pending := rfl }

theorem Block.SameValues.completeError (e : ErrorCode) : (b.completeError e).SameValues (b'.completeError e) :=
  { h with done := rfl, errcode := rfl, pending := rfl }

/-- A register is 0 in both or in neither. -/
theorem Block.SameValues.reg_eq_zero (j : Reg) : b.reg j = 0 ↔ b'.reg j = 0 := by
  rw [← BitVec.toNat_inj, ← BitVec.toNat_inj, h.regs j]; rfl

/-- Two registers compare alike in both. -/
theorem Block.SameValues.reg_le (j k : Reg) : b.reg j ≤ b.reg k ↔ b'.reg j ≤ b'.reg k := by
  rw [BitVec.le_def, BitVec.le_def, h.regs j, h.regs k]

end sameValues

end Sys2Proof.Machine
end

