-- ==== Sys2Proof/Laws/PerInstr.lean ====
section
/-! SUPPORT. Per-command families, one lemma per constructor of `Instr`. -/

namespace Sys2Proof.Laws.EncodedFields

open Sys2Proof.Machine

/-- The fields of a command's word that do not depend on which sources it has (30_encoding.md R61, R62): OP, the reserved
bits, and RD, which is the destination or 0. -/
def Statement (i : Instr) : Prop :=
  opField (encode i) = i.opcode ∧ reservedField (encode i) = 0 ∧ rdField (encode i) = (destination i).getD 0

theorem fromb (rd : Reg) : Statement (.fromb rd) := by simp [Statement, encode, destination]

theorem tob (rs1 : Reg) : Statement (.tob rs1) := by simp [Statement, encode, destination]

theorem ldi (rd : Reg) : Statement (.ldi rd) := by simp [Statement, encode, destination]

theorem clr (rd : Reg) : Statement (.clr rd) := by simp [Statement, encode, destination]

theorem mov (rd rs1 : Reg) : Statement (.mov rd rs1) := by simp [Statement, encode, destination]

theorem add (rd rs1 rs2 : Reg) : Statement (.add rd rs1 rs2) := by simp [Statement, encode, destination]

theorem sub (rd rs1 rs2 : Reg) : Statement (.sub rd rs1 rs2) := by simp [Statement, encode, destination]

theorem cmp (rs1 rs2 : Reg) : Statement (.cmp rs1 rs2) := by simp [Statement, encode, destination]

theorem modmul (rd rs1 rs2 rs3 : Reg) : Statement (.modmul rd rs1 rs2 rs3) := by simp [Statement, encode, destination]

theorem modexp (rd rs1 rs2 rs3 : Reg) : Statement (.modexp rd rs1 rs2 rs3) := by simp [Statement, encode, destination]

end Sys2Proof.Laws.EncodedFields
end

