-- ==== Sys2Proof/Laws/Status.lean ====
section
/-! SUPPORT. The bits of STATUS, CTRL and PARAM, one by one (10_state.md R27, R28, R29). -/

namespace Sys2Proof.Machine

section words

variable {cfg : Config} (b : Block cfg) (n : Nat)

/-- The bits of STATUS (R29). -/
theorem Block.getLsbD_statusWord : b.statusWord.getLsbD n =
    if n = 0 then b.busy else if n = 1 then b.done else if n = 2 then b.err else if n = 3 then b.borrow else
      if n < 6 then b.cmp.getLsbD (n - 4) else if n = 6 then b.overrun else if n = 7 then false else
        if n < 12 then b.errcode.getLsbD (n - 8) else false := by
  show BitVec.getLsbD (w := 20 + 4 + 1 + 1 + 2 + 1 + 1 + 1 + 1)
    (_ ++ _ ++ _ ++ _ ++ _ ++ _ ++ _ ++ _ ++ _) n = _
  simp only [BitVec.getLsbD_append, Nat.sub_sub, BitVec.getLsbD_ofBool, BitVec.getLsbD_zero, bit]
  by_cases hn : n < 12
  · interval_cases n <;> simp
  · have h : ¬ n < 1 ∧ ¬ n - 1 < 1 ∧ ¬ n - 2 < 1 ∧ ¬ n - 3 < 1 ∧ ¬ n - 4 < 2 ∧ ¬ n - 6 < 1 ∧ ¬ n - 7 < 1 ∧
        ¬ n - 8 < 4 ∧ n ≠ 0 ∧ n ≠ 1 ∧ n ≠ 2 ∧ n ≠ 3 ∧ ¬ n < 6 ∧ n ≠ 6 ∧ n ≠ 7 := by omega
    simp [h, hn]

/-- The bits of CTRL (R28). -/
theorem Block.getLsbD_ctrlWord : b.ctrlWord.getLsbD n = if n = 0 then b.ie else false := by
  show BitVec.getLsbD (w := 31 + 1) (_ ++ _) n = _
  simp only [BitVec.getLsbD_append, BitVec.getLsbD_ofBool, BitVec.getLsbD_zero, bit]
  by_cases hn : n = 0 <;> simp [hn]

/-- The bits of PARAM (R27). -/
theorem getLsbD_paramWord : (paramWord cfg).getLsbD n =
    if n < 16 then cfg.n.testBit n else if n < 24 then cfg.w.testBit (n - 16) else decide (n < 28) := by
  show BitVec.getLsbD (w := 4 + 4 + 8 + 16) (_ ++ _ ++ _ ++ _) n = _
  simp only [BitVec.getLsbD_append, BitVec.getLsbD_ofNat, Nat.sub_sub]
  by_cases h1 : n < 16
  · simp [h1]
  · by_cases h2 : n < 24
    · simp [h1, h2, show n - 16 < 8 by omega]
    · by_cases h3 : n < 28
      · have h4 : ¬ n - 16 < 8 := by omega
        have h5 : n - 24 < 4 := by omega
        simp only [h1, h2, h3, h4, h5, if_false, if_true, decide_true, Bool.true_and]
        obtain ⟨d, rfl⟩ : ∃ d, n = 24 + d := ⟨n - 24, by omega⟩
        have hd : d < 4 := by omega
        interval_cases d <;> rfl
      · have h4 : ¬ n - 16 < 8 := by omega
        have h5 : ¬ n - 24 < 4 := by omega
        simp [h1, h2, h3, h4, h5]

theorem Block.statusWord_busy : b.statusWord.getLsbD 0 = b.busy := b.getLsbD_statusWord 0
theorem Block.statusWord_done : b.statusWord.getLsbD 1 = b.done := b.getLsbD_statusWord 1
theorem Block.statusWord_err : b.statusWord.getLsbD 2 = b.err := b.getLsbD_statusWord 2
theorem Block.statusWord_borrow : b.statusWord.getLsbD 3 = b.borrow := b.getLsbD_statusWord 3
theorem Block.statusWord_overrun : b.statusWord.getLsbD 6 = b.overrun := b.getLsbD_statusWord 6

@[simp] theorem Block.statusWord_cmp : b.statusWord.extractLsb' 4 2 = b.cmp := by
  apply BitVec.eq_of_getLsbD_eq
  intro k hk
  rw [BitVec.getLsbD_extractLsb', b.getLsbD_statusWord]
  interval_cases k <;> rfl

@[simp] theorem Block.statusWord_errcode : b.statusWord.extractLsb' 8 4 = b.errcode := by
  apply BitVec.eq_of_getLsbD_eq
  intro k hk
  rw [BitVec.getLsbD_extractLsb', b.getLsbD_statusWord]
  interval_cases k <;> rfl

end words

end Sys2Proof.Machine
end

