-- ==== Sys2Proof/Laws/Step.lean ====
section
/-! SUPPORT. What one step can do, said once (60_exceptions.md R160, 70_reset_and_hazards.md R190, R203). -/

namespace Sys2Proof.Machine

section step

variable (s : State)

theorem engineTurn_idle (h : s.block.pending = none) : engineTurn s = .next s := by simp [engineTurn, h]

theorem engineTurn_illegal (h : s.block.pending = some .illegal) :
    engineTurn s = .next (s.withBlock (s.block.completeError .illegalCmd)) := by
  simp [engineTurn, h, State.complete_eq]

theorem engineTurn_instr {i : Instr} (h : s.block.pending = some (.instr i)) : engineTurn s = exec i s := by
  simp [engineTurn, h]

/-- The engine's turn always goes on, and leaves no command pending (R160). -/
theorem engineTurn_next : ∃ b : Block s.cfg, engineTurn s = .next (s.withBlock b) ∧ b.pending = none := by
  cases hp : s.block.pending with
  | none => exact ⟨s.block, engineTurn_idle s hp, hp⟩
  | some c =>
    cases c with
    | illegal => exact ⟨_, engineTurn_illegal s hp, rfl⟩
    | instr i =>
      rcases exec_cases s i with ⟨e, h⟩ | ⟨b, h, _⟩
      · exact ⟨_, (engineTurn_instr s hp).trans h, rfl⟩
      · exact ⟨_, (engineTurn_instr s hp).trans h, rfl⟩

/-- At the engine's turn a step is that turn, on the state whose events have moved on. -/
theorem step_engine (h : s.engineNext = true) : step s = engineTurn s.popEvent := by
  unfold State.engineNext at h
  unfold step State.popEvent
  split at h
  · next he => simp only [he, List.tail_nil]; rw [← he, State.withEvents_self]
  · next he => simp [he, handleEvent]
  · cases h

/-- A step at a performed access. -/
theorem step_access {a : BusAccess} (h : s.nextAccess a) :
    step s = match a.kind with
      | .read => .next (s.popEvent.logRead (s.block.memRead (a.addr - s.cfg.base)))
      | .write v => .next (s.popEvent.withBlock (s.block.memWrite (a.addr - s.cfg.base) v)) := by
  obtain ⟨he, hp⟩ := h
  obtain ⟨cfg, b, events, reads⟩ := s
  obtain ⟨rest, rfl⟩ : ∃ rest, events = .access a :: rest := by
    cases events with
    | nil => simp at he
    | cons e rest => exact ⟨rest, by simpa using he⟩
  exact (State.mk cfg b rest reads).hostAccess_performed a hp

theorem step_write {off : Nat} {v : Word} (h : s.nextWrite off v) :
    step s = .next (s.popEvent.withBlock (s.block.memWrite off v)) := by
  have := step_access s h
  simpa using this

theorem step_read {off : Nat} (h : s.nextRead off) : step s = .next (s.popEvent.logRead (s.block.memRead off)) := by
  have := step_access s h
  simpa using this

/-- A step at a reset. -/
theorem step_reset (h : s.resetNext = true) : step s = .next (s.popEvent.withBlock (Block.reset s.cfg)) := by
  unfold State.resetNext at h
  split at h
  · next he =>
    obtain ⟨cfg, b, events, reads⟩ := s
    cases he
    rfl
  · next a rest he =>
    simp only [Bool.and_eq_true] at h
    have hn : s.nextAccess a := ⟨by simp [he], h.1⟩
    rw [step_access s hn]
    obtain ⟨_, hs⟩ := h
    unfold BusAccess.softReset at hs
    split at hs
    · next v hk hw => simp only [hk, Block.memWrite, hw, Block.writeCtrl, hs, if_true]
    · cases hs
  · cases h

/-- A performed access is a reset exactly when it writes SRST = 1 (10_state.md R28). -/
theorem resetNext_access {a : BusAccess} (h : s.nextAccess a) : s.resetNext = a.softReset s.cfg := by
  obtain ⟨cfg, b, events, reads⟩ := s
  obtain ⟨he, hp⟩ := h
  cases events with
  | nil => simp at he
  | cons e rest =>
    obtain rfl : e = .access a := by simpa using he
    have hp' : a.performed cfg = true := hp
    simp [State.resetNext, hp']

/-- An access next is no turn of the engine. -/
theorem engineNext_access {a : BusAccess} (h : s.nextAccess a) : s.engineNext = false := by
  obtain ⟨cfg, b, events, reads⟩ := s
  obtain ⟨he, _⟩ := h
  cases events with
  | nil => simp at he
  | cons e rest =>
    obtain rfl : e = .access a := by simpa using he
    rfl

/-- A turn of the engine is no reset. -/
theorem resetNext_engine (h : s.engineNext = true) : s.resetNext = false := by
  obtain ⟨cfg, b, events, reads⟩ := s
  cases events with
  | nil => rfl
  | cons e rest => cases e <;> first | rfl | cases h

/-- One access is next at a time. -/
theorem nextAccess_unique {a a' : BusAccess} (h : s.nextAccess a) (h' : s.nextAccess a') : a = a' := by
  have := h.1.symm.trans h'.1
  simpa using this

/-- A performed write at a block offset, seen from its access. -/
theorem nextWrite_of_access {a : BusAccess} {v : Word} (h : s.nextAccess a) (hk : a.kind = .write v) :
    s.nextWrite (a.addr - s.cfg.base) v := by
  obtain ⟨⟨hlo, _⟩, hw, hl, _⟩ := (BusAccess.performed_iff a s.cfg).mp h.2
  have e : BusAccess.mk (s.cfg.base + (a.addr - s.cfg.base)) .bits32 0b1111 (.write v) = a := by
    cases a
    simp_all
  unfold State.nextWrite
  rw [e]
  exact h

/-- The offset of a performed access is aligned (R45). -/
theorem nextAccess_aligned {a : BusAccess} (h : s.nextAccess a) : (a.addr - s.cfg.base) % 4 = 0 :=
  ((BusAccess.performed_iff a s.cfg).mp h.2).2.2.2

/-- Everything a step that goes on can do. -/
theorem step_cases {t : State} (h : step s = .next t) :
    (s.engineNext = true ∧ s.block.pending = none ∧ t = s.popEvent) ∨
    (s.engineNext = true ∧ s.block.pending = some .illegal ∧
      t = s.popEvent.withBlock (s.block.completeError .illegalCmd)) ∨
    (∃ i, s.engineNext = true ∧ s.running i ∧ exec i s.popEvent = .next t) ∨
    (∃ a, s.nextAccess a ∧ a.kind = .read ∧ t = s.popEvent.logRead (s.block.memRead (a.addr - s.cfg.base))) ∨
    (∃ a v, s.nextAccess a ∧ a.kind = .write v ∧
      t = s.popEvent.withBlock (s.block.memWrite (a.addr - s.cfg.base) v)) ∨
    (∃ rest, s.events = .powerOnReset :: rest ∧ t = s.popEvent.withBlock (Block.reset s.cfg)) := by
  have engine (he : s.engineNext = true) :
      (s.engineNext = true ∧ s.block.pending = none ∧ t = s.popEvent) ∨
      (s.engineNext = true ∧ s.block.pending = some .illegal ∧
        t = s.popEvent.withBlock (s.block.completeError .illegalCmd)) ∨
      (∃ i, s.engineNext = true ∧ s.running i ∧ exec i s.popEvent = .next t) := by
    rw [step_engine s he] at h
    cases hp : s.block.pending with
    | none =>
      rw [engineTurn_idle s.popEvent hp] at h
      cases h
      exact .inl ⟨he, rfl, rfl⟩
    | some c =>
      cases c with
      | illegal =>
        rw [engineTurn_illegal s.popEvent hp] at h
        cases h
        exact .inr (.inl ⟨he, rfl, rfl⟩)
      | instr i =>
        rw [engineTurn_instr s.popEvent hp] at h
        exact .inr (.inr ⟨i, he, hp, h⟩)
  cases hs : s.events with
  | nil =>
    rcases engine (by simp [State.engineNext, hs]) with h' | h' | h'
    · exact .inl h'
    · exact .inr (.inl h')
    · exact .inr (.inr (.inl h'))
  | cons e rest =>
    cases e with
    | engine =>
      rcases engine (by simp [State.engineNext, hs]) with h' | h' | h'
      · exact .inl h'
      · exact .inr (.inl h')
      · exact .inr (.inr (.inl h'))
    | powerOnReset =>
      refine .inr (.inr (.inr (.inr (.inr ⟨rest, rfl, ?_⟩))))
      have : step s = .next (s.popEvent.withBlock (Block.reset s.cfg)) := step_reset s (by simp [State.resetNext, hs])
      rw [this] at h
      cases h
      rfl
    | access a =>
      have hp : a.performed s.cfg = true := by
        have h' := h
        simp only [step, hs, handleEvent] at h'
        exact (s.withEvents rest).hostAccess_next a h'
      have hn : s.nextAccess a := ⟨by simp [hs], hp⟩
      rw [step_access s hn] at h
      cases hk : a.kind with
      | read =>
        simp only [hk] at h
        cases h
        exact .inr (.inr (.inr (.inl ⟨a, hn, hk, rfl⟩)))
      | write v =>
        simp only [hk] at h
        cases h
        exact .inr (.inr (.inr (.inr (.inl ⟨a, v, hn, hk, rfl⟩))))

/-- A run goes on from the state its first step answers, on any machine of the host's interface. -/
theorem coreRun_succ (M : Host.Core) (k : Nat) {x y : M.State} (h : M.step x = .next y) :
    M.run (k + 1) x = M.run k y := by
  simp only [Host.Core.run, h]

theorem coreRun_one (M : Host.Core) (x : M.State) : M.run 1 x = M.step x := by
  show M.run (0 + 1) x = M.step x
  simp only [Host.Core.run]
  cases M.step x <;> rfl

theorem run_one : Host.Core.run Sys2Proof.core 1 s = step s := coreRun_one Sys2Proof.core s

theorem run_succ {t : State} (k : Nat) (h : step s = .next t) :
    Host.Core.run Sys2Proof.core (k + 1) s = Host.Core.run Sys2Proof.core k t := coreRun_succ Sys2Proof.core k h

/-- No access of the host is left (R204). -/
theorem State.hostDone_iff : s.hostDone = true ↔ ∀ a, Event.access a ∉ s.events := by
  simp only [State.hostDone, List.all_eq_true]
  constructor
  · intro h a ha
    exact absurd (h _ ha) (by simp [Event.ofHost])
  · intro h e he
    cases e with
    | access a => exact absurd he (h a)
    | engine => rfl
    | powerOnReset => rfl

/-- At the end of a run only the platform's reset input still changes the block. -/
theorem step_finished (h : s.finished) (hr : s.events.head? ≠ some .powerOnReset) :
    step s = .next s.popEvent ∧ s.popEvent.finished := by
  obtain ⟨hd, hp⟩ := h
  have hd := s.hostDone_iff.mp hd
  have he : s.engineNext = true := by
    unfold State.engineNext
    cases hs : s.events with
    | nil => rfl
    | cons e rest =>
      cases e with
      | access a => exact absurd (by simp [hs]) (hd a)
      | engine => rfl
      | powerOnReset => exact absurd (by simp [hs]) hr
  refine ⟨by rw [step_engine s he, engineTurn_idle s.popEvent hp], ?_, hp⟩
  exact (State.hostDone_iff _).mpr fun a ha => hd a (List.mem_of_mem_tail ha)

end step

end Sys2Proof.Machine
end

