-- ==== Sys2Proof/Tests/Slice0.lean ====
section
/-! SUPPORT. Tests of single steps against the vectors of 95_test_vectors.md (each named by its id), the refusals of the
well-formedness checks, and a witness for the hypotheses of every statement. Expected values come from the spec. -/

namespace Sys2Proof.Tests

open Sys2Proof.Machine

/-! ### The toy configuration T and small states -/

/-- Configuration T of 95_test_vectors.md: N = 2, W = 16, WIDTH = 32, NB = 4. -/
def toy : Config := ⟨⟨2, 16, 0, 4096⟩, by decide⟩

/-- T with its window at bus address 0x1000. -/
def toyHigh : Config := ⟨⟨2, 16, 4096, 4096⟩, by decide⟩

/-- A block of T after reset, but for these registers, BUF and ARG. -/
def toyBlock (rs : List (Reg × Nat)) (buf : Memory) (arg : Word) : Block toy :=
  { rs.foldl (fun b p => b.setReg p.1 (BitVec.ofNat toy.width p.2)) (Block.reset toy) with buf := buf, arg := arg }

/-- The machine with such a block and no event. -/
def toyState (rs : List (Reg × Nat)) (buf : Memory := []) (arg : Word := 0) : State :=
  { cfg := toy, block := toyBlock rs buf arg, events := [], hostReads := [] }

/-- The machine with such a block, `add r3, r1, r2` pending and these events. -/
def busyState (rs : List (Reg × Nat)) (es : List Event) : State :=
  { cfg := toy, block := (toyBlock rs [] 0).accept 0x00021310, events := es, hostReads := [] }

/-- The machine after reset in T with these events. -/
def idleState (es : List Event) : State :=
  { cfg := toy, block := Block.reset toy, events := es, hostReads := [] }

/-- What the step after the word `w` is placed leaves, read by `f`; none if it stops. -/
def after {α : Type} (s : State) (w : Nat) (f : State → α) : Option α :=
  match step (s.withFetchWord 32 w) with
  | .next t => some (f t)
  | _ => none

/-- What one step leaves, read by `f`; none if it stops. -/
def next {α : Type} (s : State) (f : State → α) : Option α :=
  match step s with
  | .next t => some (f t)
  | _ => none

/-- A register's value and ERRCODE. -/
def regErr (r : Reg) (t : State) : Nat × Nat := ((t.block.reg r).toNat, t.block.errcode.toNat)

/-- A register's value, BORROW and CMP. -/
def regFlags (r : Reg) (t : State) : Nat × Bool × Nat := ((t.block.reg r).toNat, t.block.borrow, t.block.cmp.toNat)

/-- BUF[0..3] and ERRCODE. -/
def bufErr (t : State) : List Nat × Nat :=
  ((List.range 4).map (fun k => (t.block.buf.read k).toNat), t.block.errcode.toNat)

/-! ### Well-formedness: an ill-formed term for each check of R7 and R40 -/

theorem test_wf_default : Params.default.wf = true := by decide
theorem test_illformed_wordSize : Params.wf ⟨4, 24, 0, 4096⟩ = false := by decide
theorem test_illformed_noWords : Params.wf ⟨0, 32, 0, 4096⟩ = false := by decide
theorem test_illformed_tooManyWords : Params.wf ⟨65536, 8, 0, 69632⟩ = false := by decide
theorem test_illformed_widthNotWords : Params.wf ⟨5, 8, 0, 4096⟩ = false := by decide
theorem test_illformed_widthTooSmall : Params.wf ⟨1, 16, 0, 4096⟩ = false := by decide
theorem test_illformed_base : Params.wf ⟨2, 16, 0x800, 4096⟩ = false := by decide
theorem test_illformed_windowSize : Params.wf ⟨2, 16, 0, 6000⟩ = false := by decide
theorem test_illformed_windowTooSmall : Params.wf ⟨1024, 32, 0, 4096⟩ = false := by decide
theorem test_illformed_refused : Config.ofParams? ⟨4, 24, 0, 4096⟩ = none := by decide

/-! ### Words written out from R66 and R64 -/

theorem test_decode_fromb : decode 0x00000101 = .instr (.fromb 1) := by decide
theorem test_decode_tob : decode 0x00002002 = .instr (.tob 2) := by decide
theorem test_decode_ldi : decode 0x00000103 = .instr (.ldi 1) := by decide
theorem test_decode_clr : decode 0x00000504 = .instr (.clr 5) := by decide
theorem test_decode_mov : decode 0x00001205 = .instr (.mov 2 1) := by decide
theorem test_decode_add : decode 0x00021310 = .instr (.add 3 1 2) := by decide
theorem test_decode_sub : decode 0x00012411 = .instr (.sub 4 2 1) := by decide
theorem test_decode_cmp : decode 0x00014020 = .instr (.cmp 4 1) := by decide
theorem test_decode_modmul : decode 0x00321430 = .instr (.modmul 4 1 2 3) := by decide
theorem test_decode_modexp : decode 0x00210340 = .instr (.modexp 3 0 1 2) := by decide
-- 0000 0000 | 1111 (RS3) | 1110 (RS2) | 1101 (RS1) | 1100 (RD) | 0100 0000 (OP)
theorem test_decode_bits : decode 0b00000000111111101101110001000000 = .instr (.modexp 12 13 14 15) := by decide
/-- V-EN-01 to V-EN-05, with the reason for each. -/
theorem test_decode_illegal :
    decodeWord 0x00000000 = .error .unmappedOpcode ∧ decodeWord 0x01000010 = .error .reservedBits ∧
    decodeWord 0x00300010 = .error .unusedField ∧ decodeWord 0x00000006 = .error .unmappedOpcode ∧
    decodeWord 0x00000120 = .error .unusedField ∧ legalWord 0x00000120 = false := by decide
theorem test_text : (Instr.modexp 3 0 1 2).text = "modexp r3, r0, r1, r2" ∧ (Instr.cmp 4 1).text = "cmp r4, r1" := by
  decide
theorem test_tableWord : decodeTableWord 32 0x00014020 = some (.cmp 4 1) ∧ decodeTableWord 32 0x120 = none := by decide

/-! ### Results: two vectors per command at most -/

/-- V-CV-03: BUF = DE AD BE EF, ARG = NB. -/
theorem test_fromb : after (toyState [] [(0, 0xDE), (1, 0xAD), (2, 0xBE), (3, 0xEF)] 4) 0x00000101 (regErr 1) =
    some (0xDEADBEEF, 0) := by decide +kernel
/-- V-CV-04, in T: ARG = NB + 1. -/
theorem test_fromb_length : after (toyState [(1, 7)] [] 5) 0x00000101 (regErr 1) = some (7, 2) := by decide +kernel
/-- V-CV-07. -/
theorem test_tob_truncates :
    after (toyState [(1, 0x12345678)] [(0, 0x11), (1, 0x22), (2, 0x33), (3, 0x44)] 2) 0x00001002 bufErr =
      some ([0x56, 0x78, 0x33, 0x44], 0) := by decide +kernel
/-- V-CV-08: zero padding, and the bus word of the result. -/
theorem test_tob_pads : after (toyState [(1, 0x1234)] [] 4) 0x00001002 (fun t => (bufErr t, t.block.memRead 0x400)) =
    some (([0, 0, 0x12, 0x34], 0), 0x34120000) := by decide +kernel
/-- V-CV-11. -/
theorem test_ldi : after (toyState [] [] 0xFFFFFFFF) 0x00000103 (regErr 1) = some (0xFFFFFFFF, 0) := by decide +kernel
/-- V-CV-13. -/
theorem test_clr : after (toyState [(5, 123)]) 0x00000504 (regErr 5) = some (0, 0) := by decide +kernel
/-- V-CV-18. -/
theorem test_mov : after (toyState [(1, 7)]) 0x00001205 (fun t => (regErr 2 t, regErr 1 t)) = some ((7, 0), (7, 0)) := by
  decide +kernel
/-- V-CV-16: word 1 decides. -/
theorem test_cmp_greater : after (toyState [(1, 0x00010000), (2, 0xFFFF)]) 0x00021020 (regFlags 1) =
    some (0x00010000, false, 0b10) := by decide +kernel
/-- V-CV-15. -/
theorem test_cmp_less : after (toyState [(4, 0), (1, 5)]) 0x00014020 (regFlags 1) = some (5, false, 0b01) := by
  decide +kernel
/-- V-AS-03: a carry into word 1. -/
theorem test_add_carry : after (toyState [(1, 0xFFFF), (2, 1)]) 0x00021310 (regFlags 3) = some (0x00010000, false, 0) := by
  decide +kernel
/-- V-AS-05, configuration D: the carry out of word 63 is discarded. -/
theorem test_add_wraps :
    after (State.reset.withBlock ((State.reset.block.setReg 1 (BitVec.ofNat _ (2 ^ 2048 - 1))).setReg 2 1)) 0x00021310
      (regErr 3) = some (0, 0) := by decide +kernel
/-- V-AS-07. -/
theorem test_sub_borrow : after (toyState [(2, 3), (1, 5)]) 0x00012411 (regFlags 4) = some (0xFFFFFFFE, true, 0) := by
  decide +kernel
/-- V-AS-17: rd = rs2, both sources are read first. -/
theorem test_sub_overlap : after (toyState [(1, 5), (2, 3)]) 0x00021211 (regFlags 2) = some (2, false, 0) := by
  decide +kernel
/-- V-MM-05: (m - 1)^2 mod m = 1 with the top bit of m set. -/
theorem test_modmul_top : after (toyState [(1, 0xFFFFFFFA), (3, 0xFFFFFFFB)]) 0x00311430 (regErr 4) = some (1, 0) := by
  decide +kernel
/-- V-MM-07, V-MM-08: DIVIDE_BY_ZERO and OPERAND_RANGE. -/
theorem test_modmul_errors :
    after (toyState [(1, 3), (2, 4), (4, 9)]) 0x00321430 (regErr 4) = some (9, 3) ∧
    after (toyState [(1, 5), (2, 1), (3, 5), (4, 9)]) 0x00321430 (regErr 4) = some (9, 4) := by decide +kernel
/-- V-ME-01. -/
theorem test_modexp : after (toyState [(0, 4), (1, 13), (2, 497)]) 0x00210340 (regErr 3) = some (445, 0) := by
  decide +kernel
/-- V-ME-04 and V-ME-08: modulus 1, modulus 0. -/
theorem test_modexp_corners :
    after (toyState [(0, 5), (1, 0), (2, 1), (3, 9)]) 0x00210340 (regErr 3) = some (0, 0) ∧
    after (toyState [(0, 2), (1, 3), (3, 9)]) 0x00210340 (regErr 3) = some (9, 3) := by decide +kernel

/-! ### Registers, errors and the bus -/

/-- V-EN-13 and T's PARAM. -/
theorem test_param : paramWord Config.default = 0x0F200040 ∧ paramWord toy = 0x0F100002 := by decide
/-- V-EN-01: the STATUS an illegal word leaves. -/
theorem test_illegal_status : after (toyState []) 0x00000000 (fun t => (t.block.statusWord, t.block.cmd)) =
    some (0x00000106, 0) := by decide +kernel
/-- V-EN-08. -/
theorem test_ack :
    let b : Block toy := { Block.reset toy with done := true, overrun := true, errcode := 3 }
    (b.memWrite 0x008 0x42).statusWord = 0x00000304 := by decide
/-- V-EN-09. -/
theorem test_irq :
    after ((idleState []).withBlock ((Block.reset toy).memWrite 0x004 1)) 0x00000504 (·.block.irq) = some true := by
  decide +kernel
/-- V-EN-10: SRST wins over IE. -/
theorem test_srst : (Block.memWrite { Block.reset toy with ie := true, overrun := true, arg := 7 } 0x004 3) =
    Block.reset toy := by decide
/-- V-EN-12: a 16-bit access at offset 0x400. -/
theorem test_halfword :
    step (idleState [.access ⟨0x400, .bits16, 0b0011, .write 1⟩]) = .refused .busProtocolViolation := rfl
/-- V-CV-20: bus lanes. -/
theorem test_lanes : (List.range 4).map (((Block.reset toy).memWrite 0x400 0x0000A10C).buf.read ·) =
    [0x0C, 0xA1, 0x00, 0x00] := by decide
/-- P3's race, both rows: `put ARG, 9` while the illegal word is pending, and after its completion. -/
theorem test_race :
    let b : Block toy := { (Block.reset toy).accept 0 with arg := 5 }
    (b.memWrite 0x010 9).arg = 5 ∧ ((b.memWrite 0x010 9).completeError .illegalCmd).statusWord = 0x00000146 ∧
    ((b.completeError .illegalCmd).memWrite 0x010 9).arg = 9 ∧
    ((b.completeError .illegalCmd).memWrite 0x010 9).statusWord = 0x00000106 := by decide
/-- R68's `import` of three bytes. -/
theorem test_import_word : HostNotation.arrayWord [0x0C, 0xA1, 0x41] 0 = 0x0041A10C ∧ HostNotation.wordsOf 3 = 1 ∧
    HostNotation.exportedBytes [0x0000E60A] 2 = [0x0A, 0xE6] := by decide

/-! ### Witnesses: a concrete case that meets the hypotheses of each statement that has some -/

/-- A legal access at a block offset of T. -/
def acc (off : Nat) (k : AccessKind) : BusAccess := ⟨toy.base + off, .bits32, 0b1111, k⟩

/-- An idle machine whose next event is a write. -/
def idleWrite (off : Nat) (v : Word) : State := idleState [.access (acc off (.write v))]

/-- A busy machine whose next event is a write. -/
def busyWrite (off : Nat) (v : Word) : State := busyState [] [.access (acc off (.write v))]

/-- An idle machine whose next event is a read. -/
def idleRead (off : Nat) : State := idleState [.access (acc off .read)]

theorem nextWrite_idle (off : Nat) (v : Word) (h : (acc off (.write v)).performed toy = true) :
    (idleWrite off v).nextWrite off v := And.intro rfl h

theorem nextWrite_busy (off : Nat) (v : Word) (h : (acc off (.write v)).performed toy = true) :
    (busyWrite off v).nextWrite off v := And.intro rfl h

theorem nextRead_idle (off : Nat) (h : (acc off .read).performed toy = true) : (idleRead off).nextRead off :=
  And.intro rfl h

theorem inv_idle (es : List Event) : (idleState es).Inv :=
  ⟨⟨List.Pairwise.nil, by simp [idleState, Block.reset]⟩, by show (0 : BitVec 2) ≠ 3; decide, Nat.zero_le 4,
    fun h => Bool.noConfusion h, fun h => Bool.noConfusion h⟩

theorem inv_busy (rs : List (Reg × Nat)) (es : List Event) (h : (toyBlock rs [] 0).cmp = 0) : (busyState rs es).Inv :=
  ⟨⟨List.Pairwise.nil, by simp [busyState, toyBlock, Block.accept]⟩, by
      show (toyBlock rs [] 0).cmp ≠ 3; rw [h]; decide, by show (0 : Nat) ≤ 4; decide, fun _ => ⟨rfl, rfl⟩, fun _ => rfl⟩

theorem busy_pending : (busyState [] []).block.pending = some (.instr (.add 3 1 2)) :=
  congrArg some test_decode_add

theorem witness_EncodeOfDecodeIsTheWord : decode 0x00321430 = .instr (.modmul 4 1 2 3) := by decide
theorem witness_DecoderAcceptsExactlyTheTableRows :
    (∃ r ∈ opcodeRows, r.matchesWord 0x00000F04 = true) ∧ legalWord 0x00001F04 = false := by decide
theorem witness_NoTwoTableRowsMatchOneWord :
    (⟨"CLR", 0x00000004, 0xFFFFF0FF⟩ : OpcodeRow) ∈ opcodeRows ∧
    (⟨"CLR", 0x00000004, 0xFFFFF0FF⟩ : OpcodeRow).matchesWord 0x00000504 = true := by decide
/-- The largest N and W of R7, and the least width. -/
theorem witness_ConfigurationsAreExactlyTheLegalParameters :
    (Config.ofParams? ⟨65535, 64, 0x7000, 528384⟩).isSome = true ∧ (Config.ofParams? ⟨4, 8, 0, 4096⟩).isSome = true ∧
    (Config.ofParams? ⟨65535, 64, 0x7000, 520192⟩).isSome = false := by decide
theorem witness_ResetPutsEveryFieldAtItsResetValue :
    (busyState [(1, 5)] [.powerOnReset]).resetNext = true ∧ (busyWrite 0x004 0b11).resetNext = true := by decide
theorem witness_StepRunsTheDecodedCommand :
    (busyState [(1, 5)] []).engineNext = true ∧ (busyState [(1, 5)] []).running (.add 3 1 2) ∧
    decode 0x00021310 = .instr (.add 3 1 2) := ⟨rfl, rfl, by decide⟩
theorem witness_IllegalWordCompletesWithIllegalCmd :
    ((idleState []).accepted 0x00000006).engineNext = true ∧
    ((idleState []).accepted 0x00000006).block.pending = some .illegal := ⟨rfl, rfl⟩
theorem witness_EngineAtAnIdleBlockChangesNothing :
    (idleState []).engineNext = true ∧ (idleState [.engine]).engineNext = true ∧ (idleState []).block.pending = none :=
  ⟨rfl, rfl, rfl⟩
theorem witness_IdleCmdWriteAcceptsTheWord :
    (idleWrite 0x00C 0x00021310).nextWrite 0x00C 0x00021310 ∧ (idleWrite 0x00C 0x00021310).block.pending = none ∧
    (busyState [] []).Inv ∧ (busyState [] []).block.pending ≠ none :=
  ⟨nextWrite_idle _ _ (by decide), rfl, inv_busy _ _ rfl, by decide⟩
theorem witness_BusyCmdWriteIsDropped :
    (busyWrite 0x00C 7).nextWrite 0x00C 7 ∧ (busyWrite 0x00C 7).block.pending ≠ none :=
  ⟨nextWrite_busy _ _ (by decide), by simp [busyWrite, busyState, Block.accept]⟩
theorem witness_AcceptanceAndCompletionRunTheWord :
    (idleState (HostNotation.put toy 0x00C 0x00000504 ++ .engine :: [])).block.pending = none ∧
    decode 0x00000504 = .instr (.clr 5) := ⟨rfl, by decide⟩
/-- Every clause's offsets, at the ends of their ranges (in T, BUF is 0x400 alone and 0x404 is reserved). -/
theorem witness_WritesWhileBusyCannotReachTheCommand :
    (∀ off ∈ [0x000, 0x004, 0x008, 0x00C, 0x010, 0x014, 0x3FC, 0x400, 0x404, 0xFFC],
      (busyWrite off 0b01).nextWrite off 0b01 ∧ (busyWrite off 0b01).block.pending ≠ none ∧
      (busyWrite off 0b01).resetNext = false) ∧
    (busyWrite 0x004 0b10).nextWrite 0x004 0b10 := by
  refine ⟨fun off h => ⟨nextWrite_busy _ _ ?_, by simp [busyWrite, busyState, Block.accept], ?_⟩,
    nextWrite_busy _ _ (by decide)⟩ <;> revert off <;> decide
theorem witness_MemWriteActsByOffset :
    (∀ off ∈ [0x000, 0x004, 0x008, 0x00C, 0x010, 0x014, 0x3FC, 0x400, 0x404, 0xFFC],
      (idleWrite off 0x42).nextWrite off 0x42 ∧ (busyWrite off 0x41).nextWrite off 0x41) ∧
    (0 < toy.nb / 4 ∧ ¬ 1 < toy.nb / 4) := by
  refine ⟨fun off h => ⟨nextWrite_idle _ _ ?_, nextWrite_busy _ _ ?_⟩, by decide⟩ <;> revert off <;> decide
theorem witness_MemReadReturnsTheRegisterAndChangesNothing :
    ∀ off ∈ [0x000, 0x004, 0x008, 0x00C, 0x010, 0x014, 0x3FC, 0x400, 0x404, 0xFFC], (idleRead off).nextRead off := by
  intro off h; refine nextRead_idle _ ?_; revert off; decide
theorem witness_ReservedOffsetsReadZeroAndIgnoreWrites :
    ∀ off ∈ [0x014, 0x3FC, 0x404, 0xFFC], ((0x014 ≤ off ∧ off < 0x400) ∨ 0x400 + toy.nb ≤ off) ∧
      (idleRead off).nextRead off ∧ (busyWrite off 9).nextWrite off 9 := by
  intro off h
  refine ⟨?_, nextRead_idle _ ?_, nextWrite_busy _ _ ?_⟩ <;> revert off <;> decide
/-- The first and the last bus word of BUF. -/
theorem witness_BufWindowLanesAreLittleEndian :
    0 < toy.nb / 4 ∧ 63 < Config.default.nb / 4 ∧ (Block.reset toy).pending = none := by decide
theorem witness_OnlyAlignedFullWordAccessesArePerformed :
    (idleRead 0xFFC).events.head? = some (.access (acc 0xFFC .read)) ∧ toy.base ≤ (acc 0xFFC .read).addr ∧
    (acc 0xFFC .read).addr < toy.base + toy.window ∧ (acc 0xFFC .read).legal toy = true ∧
    (⟨0xFFE, .bits32, 0b1111, .read⟩ : BusAccess).legal toy = false ∧
    (⟨0xFFC, .bits32, 0b0111, .read⟩ : BusAccess).legal toy = false ∧
    (⟨0xFFC, .bits64, 0b1111, .read⟩ : BusAccess).legal toy = false := by decide
/-- The last address below a window and the first above it. -/
theorem witness_AccessOutsideTheWindowFaults :
    inWindow toyHigh 0xFFC = false ∧ inWindow toyHigh 0x1000 = true ∧ inWindow toyHigh 0x1FFC = true ∧
    inWindow toyHigh 0x2000 = false := by decide
theorem witness_HostAccessesNeitherSeeNorChangeRegisters :
    ¬ ((0x004 : Nat) = 0x004 ∧ (0b01 : Word).getLsbD 1 = true) ∧
    ((0x004 : Nat) = 0x004 ∧ (0b10 : Word).getLsbD 1 = true) := by decide
/-- ARG = NB and ARG = NB + 1: the two sides of INVALID_LENGTH, for FROMB and for TOB. -/
theorem witness_FrombReadsTheBigEndianValue :
    (toyState [] [] 4).block.arg.toNat ≤ (toyState [] [] 4).cfg.nb ∧
    (toyState [] [] 5).cfg.nb < (toyState [] [] 5).block.arg.toNat := by decide
theorem witness_TobWritesTheBigEndianBytes :
    (toyState [(1, 9)] [] 4).block.arg.toNat ≤ (toyState [(1, 9)] [] 4).cfg.nb ∧
    (toyState [(1, 9)] [] 5).cfg.nb < (toyState [(1, 9)] [] 5).block.arg.toNat := by decide
theorem witness_AdderAndSubtractorLaws :
    bigintComparator toy 0x00010000 0x0000FFFF ≠ cmpLess ∧ bigintComparator toy 7 7 ≠ cmpLess := by decide
/-- One width in three word sizes. -/
theorem witness_WordSizeDoesNotChangeTheWordSerialUnits :
    toy.width = (⟨⟨4, 8, 0, 4096⟩, by decide⟩ : Config).width ∧
    toy.width = (⟨⟨1, 32, 0, 4096⟩, by decide⟩ : Config).width ∧
    (0xFFFFFFFF : BitVec toy.width).toNat = (0xFFFFFFFF : BitVec 32).toNat := by decide
theorem witness_MulRedAccumulatorNeverOverflows :
    0 < 0xFFFFFFFF ∧ 0xFFFFFFFF < 2 ^ 32 ∧ 0xFFFFFFFF ≤ 0xFFFFFFFF ∧ 0xFFFFFFFE < 0xFFFFFFFF := by decide
theorem witness_MulRedComputesTheExactProduct :
    0 < 1 ∧ 1 < 2 ^ 32 ∧ 1 ≤ 1 ∧ 0xFFFFFFFF < 2 ^ 32 ∧ 32 ≤ 32 := by decide
theorem witness_ExpModComputesTheExactPower :
    32 ≤ 32 ∧ 1 ≤ 1 ∧ 1 < 2 ^ 32 ∧ 0xFFFFFFFF < 2 ^ 32 ∧ 31 < 32 := by decide
/-- m = 0; a = m; a = b = m - 1. -/
theorem witness_ModmulWritesTheExactProduct :
    ((toyState [(1, 5), (2, 4)]).block.reg 3).toNat = 0 ∧
    ((toyState [(1, 5), (2, 4), (3, 5)]).block.reg 3).toNat ≤ ((toyState [(1, 5), (2, 4), (3, 5)]).block.reg 1).toNat ∧
    ((toyState [(1, 4), (2, 4), (3, 5)]).block.reg 1).toNat < ((toyState [(1, 4), (2, 4), (3, 5)]).block.reg 3).toNat := by
  decide +kernel
theorem witness_ModexpWritesTheExactPower :
    ((toyState [(1, 5)]).block.reg 3).toNat = 0 ∧ ((toyState [(3, 1)]).block.reg 3).toNat ≠ 0 := by decide +kernel
theorem witness_RegisterCommandsFrame :
    (Instr.modmul 3 1 2 3 = .fromb 3 ∨ Instr.modmul 3 1 2 3 = .ldi 3 ∨ Instr.modmul 3 1 2 3 = .clr 3 ∨
      (∃ rs1, Instr.modmul 3 1 2 3 = .mov 3 rs1) ∨ (∃ rs1 rs2, Instr.modmul 3 1 2 3 = .add 3 rs1 rs2) ∨
      (∃ rs1 rs2 rs3, Instr.modmul 3 1 2 3 = .modmul 3 rs1 rs2 rs3) ∨
      (∃ rs1 rs2 rs3, Instr.modmul 3 1 2 3 = .modexp 3 rs1 rs2 rs3)) :=
  .inr (.inr (.inr (.inr (.inr (.inl ⟨1, 2, 3, rfl⟩)))))
theorem witness_ErrorsWriteNothingButTheCode :
    ∃ t, exec (.modmul 4 1 2 3) (toyState [(1, 3), (2, 4)]) = .next t ∧ t.block.errcode ≠ 0 :=
  ⟨_, rfl, by decide +kernel⟩
theorem witness_ErrorCodesOfEachCommand :
    (∃ t, exec (.fromb 1) (toyState [] [] 5) = .next t) ∧
    ((idleState []).accepted 0x00000006).engineNext = true ∧
    ((idleState []).accepted 0x00000006).block.pending = some .illegal ∧
    ∃ t, step ((idleState []).accepted 0x00000006) = .next t := ⟨⟨_, rfl⟩, rfl, rfl, _, rfl⟩
/-- Two register files that agree on r1 and r2, the sources, and differ on r9. -/
theorem witness_CommandsReadOnlyTheRegistersTheyName :
    (∀ j ∈ sources (.add 3 1 2), (toyBlock [(1, 5), (2, 3), (9, 1)] [] 0).regs[j] = (toyBlock [(1, 5), (2, 3)] [] 0).reg j) ∧
    (toyBlock [(1, 5), (2, 3), (9, 1)] [] 0).reg 9 ≠ (toyBlock [(1, 5), (2, 3)] [] 0).reg 9 := by decide +kernel
theorem witness_ConversionRoundTripAndTotalOrder :
    (idleState []).block.arg.toNat ≤ (idleState []).cfg.nb ∧ (idleState []).Inv := ⟨by decide, inv_idle _⟩
theorem witness_StepKeepsTheInvariant :
    (busyState [(1, 5)] []).Inv ∧ ∃ t, step (busyState [(1, 5)] []) = .next t := ⟨inv_busy _ _ rfl, _, rfl⟩
theorem witness_NoStepChangesTheConfiguration : ∃ t, step (busyState [] []) = .next t := ⟨_, rfl⟩
theorem witness_FlagsAreWrittenOnlyByTheirCommands :
    (∃ t, step (busyState [] []) = .next t) ∧ (busyState [] []).resetNext = false ∧
    (∀ rd rs1 rs2, ¬ ((busyState [] []).engineNext = true ∧ (busyState [] []).running (.sub rd rs1 rs2))) ∧
    (∀ rs1 rs2, ¬ ((busyState [] []).engineNext = true ∧ (busyState [] []).running (.cmp rs1 rs2))) :=
  ⟨⟨_, rfl⟩, rfl, fun _ _ _ h => Command.noConfusion (Option.some.inj (busy_pending.symm.trans h.2)) nofun,
    fun _ _ h => Command.noConfusion (Option.some.inj (busy_pending.symm.trans h.2)) nofun⟩
theorem witness_DataChangesOnlyWhereTheSpecSays :
    (∃ t, step (idleRead 0x400) = .next t) ∧ (idleRead 0x400).resetNext = false ∧
    (∀ i, ¬ ((idleRead 0x400).engineNext = true ∧ (idleRead 0x400).running i ∧ destination i = some 1)) ∧
    (∀ v, ¬ ((idleRead 0x400).nextWrite 0x010 v ∧ (idleRead 0x400).block.pending = none)) :=
  ⟨⟨_, rfl⟩, rfl, fun _ h => by simp [State.engineNext, idleRead, idleState] at h,
    fun _ h => by simp [State.nextWrite, State.nextAccess, idleRead, idleState, acc] at h⟩
theorem witness_InterruptLineFollowsCompletion :
    ((busyState [] []).engineNext = true ∧ (busyState [] []).block.pending ≠ none ∧
      ∃ t, step (busyState [] []) = .next t) ∧
    ((idleWrite 0x00C 5).nextWrite 0x00C 5 ∧ ∃ t, step (idleWrite 0x00C 5) = .next t) ∧
    ((idleWrite 0x008 2).nextWrite 0x008 2 ∧ ∃ t, step (idleWrite 0x008 2) = .next t) ∧
    ((idleWrite 0x004 0).nextWrite 0x004 0 ∧ ∃ t, step (idleWrite 0x004 0) = .next t) ∧
    ((idleWrite 0x004 2).resetNext = true ∧ ∃ t, step (idleWrite 0x004 2) = .next t) ∧
    ((busyWrite 0x010 9).nextAccess (acc 0x010 (.write 9)) ∧
      (acc 0x010 (.write 9)).breaksHazardRule (busyWrite 0x010 9) = true) :=
  ⟨⟨rfl, by simp [busyState, Block.accept], _, rfl⟩, ⟨nextWrite_idle _ _ (by decide), _, rfl⟩,
    ⟨nextWrite_idle _ _ (by decide), _, rfl⟩, ⟨nextWrite_idle _ _ (by decide), _, rfl⟩, ⟨rfl, _, rfl⟩,
    And.intro rfl (by decide), by decide⟩
/-- OVERRUN set by a dropped write, and cleared by a write to STATUS. -/
theorem witness_OverrunRecordsTheDroppedWrites :
    ((busyWrite 0x010 9).nextAccess (acc 0x010 (.write 9)) ∧
      (acc 0x010 (.write 9)).breaksHazardRule (busyWrite 0x010 9) = true ∧ next (busyWrite 0x010 9) (·.block.overrun) = some true) ∧
    (let s := (busyWrite 0x008 0x40).withBlock (busyWrite 0x008 0x40).block.dropWrite
     s.block.overrun = true ∧ s.nextWrite 0x008 0x40 ∧ next s (·.block.overrun) = some false) :=
  ⟨⟨And.intro rfl (by decide), by decide, by decide⟩, rfl, And.intro rfl (by decide), by decide⟩
theorem witness_LatencyDoesNotChangeTheResult :
    let as := [acc 0x008 .read, acc 0x010 (.write 9), acc 0x004 (.write 1)]
    (busyState [(1, 5), (2, 3)] (as.map Event.access ++ .engine :: [])).running (.add 3 1 2) ∧
    ∀ a ∈ as, a.performed toy = true ∧ a.softReset toy = false := ⟨rfl, by decide⟩
/-- T and the same WIDTH in bytes, one register written in each. -/
theorem witness_WordSizeDoesNotChangeWhatCommandsAndAccessesDo :
    let c' : Config := ⟨⟨4, 8, 0, 4096⟩, by decide⟩
    toy.width = c'.width ∧ toy.w ≠ c'.w ∧
      ((Block.reset toy).setReg 1 0xFFFF).SameValues ((Block.reset c').setReg 1 0xFFFF) :=
  ⟨rfl, by decide, ⟨by decide +kernel, rfl, rfl, rfl, rfl, rfl, rfl, rfl, rfl, rfl, rfl⟩⟩
/-- A command written, completed, and then a power-on reset. -/
def thenReset : List Event := [.access (acc 0x00C (.write 0x00000504)), .engine, .powerOnReset]

/-- R204 on that run: it has not ended at its start, nor with the command pending, but right after the completion, before the
reset. -/
theorem test_runEnds :
    (idleState thenReset).hostDone = false ∧
    next (idleState thenReset) (fun t => (t.hostDone, t.block.busy)) = some (true, true) ∧
    next ((busyState [] [.engine, .powerOnReset])) (fun t => (t.hostDone, t.block.busy, t.block.done, t.events)) =
      some (true, false, true, [.powerOnReset]) := by decide +kernel

theorem witness_EveryRunEndsAtOnePointAndStaysThere :
    (∀ a, Event.access a ∈ (idleState thenReset).events → a.performed toy = true) ∧
    (idleState [.engine, .powerOnReset]).finished ∧
    (idleState [.engine, .powerOnReset]).events.head? ≠ some .powerOnReset ∧
    (idleState []).endsAfter 0 (idleState []) := by
  refine ⟨fun a h => ?_, ⟨rfl, rfl⟩, by decide, rfl, ⟨rfl, rfl⟩, fun j h => absurd h (Nat.not_lt_zero j)⟩
  have e : a = acc 0x00C (.write 0x00000504) := by simpa [idleState, thenReset] using h
  rw [e]; decide

end Sys2Proof.Tests
end

section
/-! PROOFS. The family of 00_scope.md: which parameters are a configuration (R7), what the word-serial units compute and
why W is not visible in it (R8), the state after reset (R6, R34), and the frame of the commands that write one register. -/

namespace Sys2Proof.Machine

/-! ### Configurations (R7) -/

/-- Parameters are accepted exactly when they pass the check. -/
theorem exists_ofParams?_eq_some_iff (p : Params) :
    (∃ c, Config.ofParams? p = some c ∧ c.params = p) ↔ p.wf = true := by
  constructor
  · rintro ⟨c, -, rfl⟩
    exact c.ok
  · intro h
    exact ⟨⟨p, h⟩, Config.ofParams?_eq_some.mpr rfl, rfl⟩

/-- Settles O7: acceptance is the check of R7 and R40, and the check is the arithmetic of `Params.wf_iff`. -/
theorem configurationsAreExactlyTheLegalParameters : Obligations.ConfigurationsAreExactlyTheLegalParameters := by
  intro p
  rw [exists_ofParams?_eq_some_iff, Params.wf_iff]
  simp only [Params.nb, Params.width, Nat.dvd_iff_mod_eq_zero, List.mem_cons, List.not_mem_nil, or_false, and_assoc]

/-! ### What the word-serial units compute, for every N and W (R8, 41_add_sub.md, 40_conversion.md R85) -/

section units

variable (cfg : Config) (a b : BitVec cfg.width)

/-- All N words of an operand are the operand (10_state.md R21). -/
theorem toNat_mod_words : a.toNat % 2 ^ ((0 + cfg.n) * cfg.w) = a.toNat := by
  rw [Nat.zero_add, ← cfg.width_eq]
  exact Nat.mod_eq_of_lt a.isLt

/-- The adder adds modulo 2^WIDTH (R100). -/
theorem bigintAdder_eq_add : bigintAdder cfg a b = a + b := by
  have hloop := addWords_eq cfg.w a.toNat b.toNat cfg.n 0 0 0 (by simp [Nat.mod_one]) (by simp)
  rw [toNat_mod_words, toNat_mod_words] at hloop
  apply BitVec.eq_of_toNat_eq
  rw [bigintAdder, hloop, BitVec.toNat_ofNat, BitVec.toNat_add, Nat.zero_add, ← cfg.width_eq, Nat.mod_mod]

/-- The subtractor's loop ends with the exact difference, the borrow standing for 2^WIDTH (R101). -/
theorem subWords_add_eq :
    (subWords cfg.w a.toNat b.toNat cfg.n 0 false 0).1 + b.toNat =
      a.toNat + (subWords cfg.w a.toNat b.toNat cfg.n 0 false 0).2.toNat * 2 ^ cfg.width ∧
    (subWords cfg.w a.toNat b.toNat cfg.n 0 false 0).1 < 2 ^ cfg.width := by
  have hloop := subWords_eq cfg.w a.toNat b.toNat cfg.n 0 false 0 (by simp [Nat.mod_one]) (by simp)
  rw [toNat_mod_words, toNat_mod_words, Nat.zero_add, ← cfg.width_eq] at hloop
  refine ⟨?_, hloop.2⟩
  zify
  linarith [hloop.1]

/-- BORROW tells whether the difference is negative (R101). -/
theorem bigintSubtractor_borrow : (bigintSubtractor cfg a b).2 = decide (a.toNat < b.toNat) := by
  obtain ⟨hsum, hlt⟩ := subWords_add_eq cfg a b
  have hb := b.isLt
  show (subWords cfg.w a.toNat b.toNat cfg.n 0 false 0).2 = _
  cases hbrw : (subWords cfg.w a.toNat b.toNat cfg.n 0 false 0).2 with
  | false =>
    rw [hbrw, Bool.toNat_false] at hsum
    exact (decide_eq_false (by omega)).symm
  | true =>
    rw [hbrw, Bool.toNat_true] at hsum
    exact (decide_eq_true (by omega)).symm

/-- The subtractor subtracts modulo 2^WIDTH (R101): its difference and `b` add up to `a`. -/
theorem bigintSubtractor_diff : (bigintSubtractor cfg a b).1 = a - b := by
  obtain ⟨hsum, hlt⟩ := subWords_add_eq cfg a b
  rw [eq_sub_iff_add_eq, bigintSubtractor]
  apply BitVec.eq_of_toNat_eq
  rw [BitVec.toNat_add, BitVec.toNat_ofNat, Nat.mod_eq_of_lt hlt, hsum, Nat.add_mul_mod_self_right,
    Nat.mod_eq_of_lt a.isLt]

/-- The comparator gives the order of the two unsigned values (R85). -/
theorem bigintComparator_eq : bigintComparator cfg a b =
    if a.toNat < b.toNat then cmpLess else if a.toNat = b.toNat then cmpEqual else cmpGreater := by
  have ha := toNat_mod_words cfg a
  have hb := toNat_mod_words cfg b
  rw [Nat.zero_add] at ha hb
  rw [bigintComparator, compareWords_eq, ha, hb]

end units

section wordSize

variable {c c' : Config} (hw : c.width = c'.width) {a b : BitVec c.width} {a' b' : BitVec c'.width}
  (ha : a.toNat = a'.toNat) (hb : b.toNat = b'.toNat)
include ha hb

theorem bigintComparator_congr : bigintComparator c a b = bigintComparator c' a' b' := by
  rw [bigintComparator_eq, bigintComparator_eq, ha, hb]

theorem bigintSubtractor_borrow_congr : (bigintSubtractor c a b).2 = (bigintSubtractor c' a' b').2 := by
  rw [bigintSubtractor_borrow, bigintSubtractor_borrow, ha, hb]

include hw

theorem bigintAdder_congr : (bigintAdder c a b).toNat = (bigintAdder c' a' b').toNat := by
  rw [bigintAdder_eq_add, bigintAdder_eq_add, BitVec.toNat_add, BitVec.toNat_add, ha, hb, hw]

theorem bigintSubtractor_diff_congr :
    (bigintSubtractor c a b).1.toNat = (bigintSubtractor c' a' b').1.toNat := by
  rw [bigintSubtractor_diff, bigintSubtractor_diff, BitVec.toNat_sub, BitVec.toNat_sub, ha, hb, hw]

end wordSize

/-- Settles O34: each unit computes a function of the two values and of WIDTH alone. -/
theorem wordSizeDoesNotChangeTheWordSerialUnits : Obligations.WordSizeDoesNotChangeTheWordSerialUnits := by
  intro c c' hw a b a' b' ha hb
  exact ⟨bigintAdder_congr hw ha hb, bigintSubtractor_diff_congr hw ha hb, bigintSubtractor_borrow_congr ha hb,
    bigintComparator_congr ha hb⟩

/-! ### Machines of one WIDTH that hold the same values (R8) -/

/-- NB follows from WIDTH (R6). -/
theorem nb_congr {c c' : Config} (hw : c.width = c'.width) : c.nb = c'.nb := congrArg (· / 8) hw

/-- The register map depends on the configuration only by NB (20_memory.md R41). -/
theorem windowReg_congr {c c' : Config} (hw : c.width = c'.width) (off : Nat) :
    windowReg c off = windowReg c' off := by
  rw [windowReg, windowReg, nb_congr hw]

/-- PARAM has one offset (20_memory.md R41). -/
theorem windowReg_eq_param {cfg : Config} {off : Nat} (h : windowReg cfg off = .param) : off = 0x000 := by
  unfold windowReg at h
  split_ifs at h with h0
  exact h0

namespace Block.SameValues

variable {c c' : Config} {b : Block c} {b' : Block c'} (h : b.SameValues b')

/-- Two reset blocks hold the same values. -/
theorem reset (c c' : Config) : (Block.reset c).SameValues (Block.reset c') where
  regs := fun j => by rw [Block.reg_reset, Block.reg_reset]; rfl
  buf := rfl
  arg := rfl
  cmd := rfl
  ie := rfl
  done := rfl
  borrow := rfl
  cmp := rfl
  overrun := rfl
  errcode := rfl
  pending := rfl

include h

/-! #### The words and lines read from the block -/

theorem busy : b.busy = b'.busy := by rw [Block.busy, Block.busy, h.pending]

theorem irq : b.irq = b'.irq := by rw [Block.irq, Block.irq, h.ie, h.done]

theorem ctrlWord : b.ctrlWord = b'.ctrlWord := by rw [Block.ctrlWord, Block.ctrlWord, h.ie]

theorem statusWord : b.statusWord = b'.statusWord := by
  rw [Block.statusWord, Block.statusWord, Block.err, Block.err, h.busy, h.done, h.errcode, h.borrow, h.cmp, h.overrun]

/-- Every read but PARAM's gives the same word: no register of the window shows W (20_memory.md R43). -/
theorem memRead (hw : c.width = c'.width) {off : Nat} (hoff : off ≠ 0x000) : b.memRead off = b'.memRead off := by
  have hparam : windowReg c' off ≠ .param := fun e => hoff (windowReg_eq_param e)
  rw [Block.memRead, Block.memRead, windowReg_congr hw]
  cases hreg : windowReg c' off with
  | param => exact absurd hreg hparam
  | ctrl => exact h.ctrlWord
  | status => exact h.statusWord
  | cmd => exact h.cmd
  | arg => exact h.arg
  | buf k => exact congrArg (·.busWord k) h.buf
  | reserved => rfl

/-! #### Host writes -/

theorem setArg (v : Word) : (b.setArg v).SameValues (b'.setArg v) := { h with arg := rfl }

theorem dropWrite : b.dropWrite.SameValues b'.dropWrite := { h with overrun := rfl }

theorem accept (v : Word) : (b.accept v).SameValues (b'.accept v) :=
  { h with cmd := rfl, pending := rfl, done := rfl, errcode := rfl }

theorem ackStatus (v : Word) : (b.ackStatus v).SameValues (b'.ackStatus v) :=
  { h with
    done := by rw [Block.ackStatus_done, Block.ackStatus_done, h.done]
    overrun := by rw [Block.ackStatus_overrun, Block.ackStatus_overrun, h.overrun] }

theorem writeCtrl (v : Word) : (b.writeCtrl v).SameValues (b'.writeCtrl v) := by
  unfold Block.writeCtrl
  split_ifs
  · exact reset c c'
  · exact { h with ie := rfl }

/-- Both blocks drop a write, or both perform it. -/
theorem unlessBusy {w : Block c} {w' : Block c'} (hwritten : w.SameValues w') :
    (b.unlessBusy w).SameValues (b'.unlessBusy w') := by
  rw [Block.unlessBusy, Block.unlessBusy, h.busy]
  split_ifs
  · exact h.dropWrite
  · exact hwritten

/-- Every write leaves the same values (20_memory.md R44). -/
theorem memWrite (hw : c.width = c'.width) (off : Nat) (v : Word) :
    (b.memWrite off v).SameValues (b'.memWrite off v) := by
  rw [Block.memWrite, Block.memWrite, windowReg_congr hw, h.buf]
  cases windowReg c' off with
  | param => exact h
  | ctrl => exact h.writeCtrl v
  | status => exact h.ackStatus v
  | cmd => exact h.unlessBusy (h.accept v)
  | arg => exact h.unlessBusy (h.setArg v)
  | buf k => exact h.unlessBusy (h.setBuf _)
  | reserved => exact h

/-! #### Completions -/

/-- A guard that holds in both blocks or in neither: both complete with its error, or both go on (60_exceptions.md
R163). -/
theorem complete_guard {p p' : Prop} [Decidable p] [Decidable p'] (hp : p ↔ p') (e : ErrorCode)
    {r : ExecResult c} {r' : ExecResult c'} (hr : (b.complete r).SameValues (b'.complete r')) :
    (b.complete (if p then .error e else r)).SameValues (b'.complete (if p' then .error e else r')) := by
  by_cases hp' : p'
  · rw [if_pos (hp.mpr hp'), if_pos hp']
    exact h.completeError e
  · rw [if_neg (mt hp.mp hp'), if_neg hp']
    exact hr

/-- A number written to one register of both blocks, modulo 2^WIDTH, and the completion. -/
theorem complete_setReg_ofNat (hw : c.width = c'.width) (rd : Reg) {x x' : Nat} (hx : x = x') :
    (b.complete (.ok (b.setReg rd (BitVec.ofNat c.width x)))).SameValues
      (b'.complete (.ok (b'.setReg rd (BitVec.ofNat c'.width x')))) :=
  (h.setReg rd (by rw [BitVec.toNat_ofNat, BitVec.toNat_ofNat, hx, hw])).completeOk

/-- INVALID_LENGTH has the same cause in both blocks (40_conversion.md R81, R82). -/
theorem argLength_guard (hw : c.width = c'.width) : c.nb < b.argLength ↔ c'.nb < b'.argLength := by
  rw [nb_congr hw, Block.argLength, Block.argLength, h.arg]

end Block.SameValues

/-- Every command leaves the same values in two machines of one WIDTH that hold the same values (R8). -/
theorem exec_sameValues {s s' : State} (hw : s.cfg.width = s'.cfg.width) (h : s.block.SameValues s'.block)
    (i : Instr) : ∃ (b : Block s.cfg) (b' : Block s'.cfg),
      exec i s = .next (s.withBlock b) ∧ exec i s' = .next (s'.withBlock b') ∧ b.SameValues b' := by
  cases i with
  | fromb rd =>
    refine ⟨_, _, rfl, rfl, h.complete_guard (h.argLength_guard hw) _ (h.complete_setReg_ofNat hw rd ?_)⟩
    rw [h.buf, Block.argLength, Block.argLength, h.arg]
  | tob rs1 =>
    refine ⟨_, _, rfl, rfl, h.complete_guard (h.argLength_guard hw) _ ?_⟩
    rw [h.buf, h.regs rs1, Block.argLength, Block.argLength, h.arg]
    exact (h.setBuf _).completeOk
  | ldi rd =>
    refine ⟨_, _, rfl, rfl, (h.setReg rd ?_).completeOk⟩
    rw [Block.argValue, Block.argValue, BitVec.toNat_setWidth, BitVec.toNat_setWidth, h.arg, hw]
  | clr rd => exact ⟨_, _, rfl, rfl, (h.setReg rd rfl).completeOk⟩
  | mov rd rs1 => exact ⟨_, _, rfl, rfl, (h.setReg rd (h.regs rs1)).completeOk⟩
  | add rd rs1 rs2 =>
    exact ⟨_, _, rfl, rfl, (h.setReg rd (bigintAdder_congr hw (h.regs rs1) (h.regs rs2))).completeOk⟩
  | sub rd rs1 rs2 =>
    have hdiff := bigintSubtractor_diff_congr hw (h.regs rs1) (h.regs rs2)
    refine ⟨_, _, rfl, rfl, ?_⟩
    rw [bigintSubtractor_borrow_congr (h.regs rs1) (h.regs rs2)]
    exact ((h.setReg rd hdiff).setBorrow _).completeOk
  | cmp rs1 rs2 =>
    refine ⟨_, _, rfl, rfl, ?_⟩
    rw [bigintComparator_congr (h.regs rs1) (h.regs rs2)]
    exact (h.setCmp _).completeOk
  | modmul rd rs1 rs2 rs3 =>
    have hrange := or_congr (h.reg_le rs3 rs1) (h.reg_le rs3 rs2)
    refine ⟨_, _, rfl, rfl, h.complete_guard (h.reg_eq_zero rs3) _ <| h.complete_guard hrange _ <|
      h.complete_setReg_ofNat hw rd ?_⟩
    rw [h.regs rs1, h.regs rs2, h.regs rs3, hw]
  | modexp rd rs1 rs2 rs3 =>
    refine ⟨_, _, rfl, rfl, h.complete_guard (h.reg_eq_zero rs3) _ (h.complete_setReg_ofNat hw rd ?_)⟩
    rw [h.regs rs1, h.regs rs2, h.regs rs3, hw]

/-- Settles O56: the commands by `exec_sameValues`, the accesses offset by offset. -/
theorem wordSizeDoesNotChangeWhatCommandsAndAccessesDo :
    Obligations.WordSizeDoesNotChangeWhatCommandsAndAccessesDo := by
  intro s s' hw h
  exact ⟨exec_sameValues hw h, fun _ hoff => h.memRead hw hoff, h.memWrite hw, h.irq⟩

/-! ### The state after reset (R6, 10_state.md R34) -/

/-- STATUS and CTRL read 0 after reset, in every configuration. -/
@[simp] theorem Block.statusWord_reset (cfg : Config) : (Block.reset cfg).statusWord = 0 := by
  apply BitVec.eq_of_getLsbD_eq
  intro n _
  rw [Block.getLsbD_statusWord]
  simp [Block.busy, Block.err]

@[simp] theorem Block.ctrlWord_reset (cfg : Config) : (Block.reset cfg).ctrlWord = 0 := by
  rw [Block.ctrlWord, Block.reset_ie]
  decide

/-- PARAM of the default N and W (10_state.md R27). -/
theorem paramWord_default : paramWord Config.default = 0x0F200040 := by decide

/-- Settles O9: the reset state is `Block.reset` of the default configuration, field by field. -/
theorem resetStateIsTheSpecs : Obligations.ResetStateIsTheSpecs :=
  ⟨rfl, rfl, rfl, Block.reset_regs _, Block.reset_buf _, Block.reset_arg _, Block.reset_cmd _,
    Block.statusWord_reset _, Block.ctrlWord_reset _, Block.reset_pending _, rfl, paramWord_default⟩

/-! ### The frame of the commands that write one register and no flag (10_state.md R10, R23, R24) -/

/-- What a command leaves unchanged when it is no TOB, SUB or CMP, whether it ends in an error or not. -/
theorem exec_frame (s : State) {i : Instr} (htob : ∀ rs1, i ≠ .tob rs1) (hsub : ∀ rd rs1 rs2, i ≠ .sub rd rs1 rs2)
    (hcmp : ∀ rs1 rs2, i ≠ .cmp rs1 rs2) :
    ∃ b : Block s.cfg, exec i s = .next (s.withBlock b) ∧
      (∀ j : Reg, destination i ≠ some j → b.reg j = s.block.reg j) ∧ (∀ k, b.buf.read k = s.block.buf.read k) ∧
      b.borrow = s.block.borrow ∧ b.cmp = s.block.cmp ∧ b.arg = s.block.arg ∧ b.cmd = s.block.cmd ∧
      b.ie = s.block.ie ∧ b.overrun = s.block.overrun := by
  obtain ⟨e, he⟩ | ⟨b, hb, hwrites⟩ := exec_cases s i
  · exact ⟨_, he, fun _ _ => rfl, fun _ => rfl, rfl, rfl, rfl, rfl, rfl, rfl⟩
  · exact ⟨_, hb, hwrites.reg, fun k => congrArg (·.read k) (hwrites.buf htob), hwrites.borrow hsub,
      hwrites.cmp hcmp, hwrites.arg, hwrites.cmd, hwrites.ie, hwrites.overrun⟩

/-- Settles O40: none of the seven commands is TOB, SUB or CMP, and rd is the destination of each. -/
theorem registerCommandsFrame : Obligations.RegisterCommandsFrame := by
  intro s i rd hi
  have hdest : destination i = some rd := by
    obtain rfl | rfl | rfl | ⟨_, rfl⟩ | ⟨_, _, rfl⟩ | ⟨_, _, _, rfl⟩ | ⟨_, _, _, rfl⟩ := hi <;> rfl
  obtain ⟨b, hexec, hregs, hrest⟩ := exec_frame s (i := i) (by rintro _ rfl; simp at hi)
    (by rintro _ _ _ rfl; simp at hi) (by rintro _ _ rfl; simp at hi)
  exact ⟨b, hexec, fun j hj => hregs j (by rw [hdest]; exact fun e => hj (Option.some.inj e).symm), hrest⟩

end Sys2Proof.Machine
end

section
/-! PROOFS. The family of 10_state.md: what one step can do to the block (R20, R23, R24, R25), the legal states every step
keeps, reset (R34), the interrupt line (R33), and the fields of PARAM, CTRL and STATUS (R27 to R30). -/

namespace Sys2Proof.Machine

/-! ### What a command's completion leaves behind (60_exceptions.md R160, R163) -/

section completed

variable {cfg : Config} {b b' : Block cfg} {i : Instr}

/-- What every completion leaves of the life cycle's own fields (R160, R164). -/
structure Block.Completed (b : Block cfg) : Prop where
  done : b.done = true
  pending : b.pending = none
  errcodeLegal : b.errcode.toNat ≤ 4

/-- The codes of R164 are 1 to 4. -/
theorem ErrorCode.code_le (e : ErrorCode) : e.code.toNat ≤ 4 := by cases e <;> decide

theorem Block.completeOk_completed (b : Block cfg) : b.completeOk.Completed := ⟨rfl, rfl, Nat.zero_le 4⟩

theorem Block.completeError_completed (b : Block cfg) (e : ErrorCode) : (b.completeError e).Completed :=
  ⟨rfl, rfl, e.code_le⟩

/-- The error arm writes no data at all (R163). -/
theorem WritesOnly.completeError (i : Instr) (b : Block cfg) (e : ErrorCode) :
    WritesOnly i b (b.completeError e) where
  reg := fun _ _ => rfl
  buf := fun _ => rfl
  bufTail := fun _ _ => rfl
  bufWf := id
  borrow := fun _ => rfl
  cmp := fun _ => rfl
  cmpLegal := id
  arg := rfl
  cmd := rfl
  ie := rfl
  overrun := rfl

/-- The ok arm adds no data to the command's own writes. -/
theorem WritesOnly.completeOk (h : WritesOnly i b b') : WritesOnly i b b'.completeOk := { h with }

/-- Every command completes, and with an error or without one it has made its own writes at most. -/
theorem exec_completes (s : State) (i : Instr) : ∃ b : Block s.cfg,
    exec i s = .next (s.withBlock b) ∧ b.Completed ∧ WritesOnly i s.block b := by
  obtain ⟨e, he⟩ | ⟨b, hb, hwrites⟩ := exec_cases s i
  · exact ⟨_, he, s.block.completeError_completed e, WritesOnly.completeError i s.block e⟩
  · exact ⟨_, hb, b.completeOk_completed, hwrites.completeOk⟩

/-- With a command pending, legal or not, the engine's turn completes it and leaves IE alone. -/
theorem engineTurn_completes (s : State) (h : s.block.pending ≠ none) : ∃ b : Block s.cfg,
    engineTurn s = .next (s.withBlock b) ∧ b.Completed ∧ b.ie = s.block.ie := by
  obtain ⟨c, hc⟩ := Option.ne_none_iff_exists'.mp h
  cases c with
  | illegal => exact ⟨_, engineTurn_illegal s hc, s.block.completeError_completed _, rfl⟩
  | instr i =>
    obtain ⟨b, hexec, hdone, hwrites⟩ := exec_completes s i
    exact ⟨b, (engineTurn_instr s hc).trans hexec, hdone, hwrites.ie⟩

end completed

/-! ### Everything a step can do to the block -/

/-- `StepEffect s b`: a step from `s` may leave the block `b`. One constructor for each thing that can happen at the block,
with its cause (20_memory.md R44, 60_exceptions.md R160 to R162, 70_reset_and_hazards.md R190). -/
inductive StepEffect (s : State) : Block s.cfg → Prop
  | unchanged : StepEffect s s.block
  | reset (hreset : s.resetNext = true) : StepEffect s (Block.reset s.cfg)
  | illegal (hengine : s.engineNext = true) (hpending : s.block.pending = some .illegal) :
      StepEffect s (s.block.completeError .illegalCmd)
  | completion (i : Instr) (b : Block s.cfg) (hengine : s.engineNext = true) (hrun : s.running i)
      (hdone : b.Completed) (hwrites : WritesOnly i s.block b) : StepEffect s b
  | writeIe (v : Word) (hwrite : s.nextWrite 0x004 v) : StepEffect s { s.block with ie := v.getLsbD 0 }
  | ackStatus (v : Word) (hwrite : s.nextWrite 0x008 v) : StepEffect s (s.block.ackStatus v)
  | dropWrite (hbusy : s.block.pending ≠ none) : StepEffect s s.block.dropWrite
  | accept (v : Word) (hwrite : s.nextWrite 0x00C v) (hidle : s.block.pending = none) :
      StepEffect s (s.block.accept v)
  | setArg (v : Word) (hwrite : s.nextWrite 0x010 v) (hidle : s.block.pending = none) :
      StepEffect s (s.block.setArg v)
  | setBuf (k : Nat) (v : Word) (hk : k < s.cfg.nb / 4) (hwrite : s.nextWrite (0x400 + 4 * k) v)
      (hidle : s.block.pending = none) : StepEffect s (s.block.setBuf (s.block.buf.writeBusWord k v))

section effects

variable {s t : State}

/-- A step has one outcome. -/
theorem step_next_unique {u : State} (h : step s = .next t) (h' : step s = .next u) : u = t :=
  Host.Outcome.next.inj (h'.symm.trans h)

/-- A performed write of SRST = 1 to CTRL is a reset (10_state.md R28). -/
theorem resetNext_of_srst {v : Word} (h : s.nextWrite 0x004 v) (hv : v.getLsbD 1 = true) : s.resetNext = true := by
  rw [resetNext_access s h]
  simpa [BusAccess.softReset] using hv

theorem memWrite_effect {off : Nat} {v : Word} (h : s.nextWrite off v) :
    StepEffect s (s.block.memWrite off v) := by
  obtain e | ⟨rfl, hv, e⟩ | ⟨rfl, -, e⟩ | ⟨rfl, e⟩ | ⟨hbusy, e⟩ | ⟨rfl, hidle, e⟩ | ⟨rfl, hidle, e⟩ |
    ⟨k, rfl, hk, hidle, e⟩ := s.block.memWrite_cases v off <;> rw [e]
  · exact .unchanged
  · exact .reset (resetNext_of_srst h hv)
  · exact .writeIe v h
  · exact .ackStatus v h
  · exact .dropWrite hbusy
  · exact .accept v h hidle
  · exact .setArg v h hidle
  · exact .setBuf k v hk h hidle

/-- A step that goes on keeps the configuration, and what it does to the block is one of these effects. -/
theorem step_effect (h : step s = .next t) : ∃ (b : Block s.cfg) (events : List Event) (reads : List Word),
    t = ⟨s.cfg, b, events, reads⟩ ∧ StepEffect s b := by
  obtain ⟨-, -, rfl⟩ | ⟨hengine, hpending, rfl⟩ | ⟨i, hengine, hrun, hexec⟩ | ⟨a, -, -, rfl⟩ |
    ⟨a, v, hnext, hkind, rfl⟩ | ⟨rest, hevents, rfl⟩ := step_cases s h
  · exact ⟨_, _, _, rfl, .unchanged⟩
  · exact ⟨_, _, _, rfl, .illegal hengine hpending⟩
  · obtain ⟨b, hb, hdone, hwrites⟩ := exec_completes s.popEvent i
    obtain rfl := Host.Outcome.next.inj (hb.symm.trans hexec)
    exact ⟨b, _, _, rfl, .completion (s := s) i b hengine hrun hdone hwrites⟩
  · exact ⟨_, _, _, rfl, .unchanged⟩
  · exact ⟨_, _, _, rfl, memWrite_effect (nextWrite_of_access s hnext hkind)⟩
  · exact ⟨_, _, _, rfl, .reset (by simp [State.resetNext, hevents])⟩

end effects

/-! ### The legal states -/

section invariant

variable {cfg : Config} {b b' : Block cfg}

theorem Block.reset_inv (cfg : Config) : (Block.reset cfg).Inv where
  bufCanonical := Memory.wf_nil cfg.nb
  cmpLegal := by simp
  errcodeLegal := Nat.zero_le 4
  busyStatus := nofun
  busyCommand := nofun

namespace Block.Inv

variable (h : b.Inv)
include h

/-- A completed block is not busy, so the invariant asks only for BUF, STATUS.CMP and ERRCODE. -/
theorem completed {i : Instr} (hwrites : WritesOnly i b b') (hdone : b'.Completed) : b'.Inv := by
  have hidle : b'.busy ≠ true := by simp [Block.busy, hdone.pending]
  exact
    { bufCanonical := hwrites.bufWf h.bufCanonical
      cmpLegal := hwrites.cmpLegal h.cmpLegal
      errcodeLegal := hdone.errcodeLegal
      busyStatus := fun hb => absurd hb hidle
      busyCommand := fun hb => absurd hb hidle }

theorem completeError (e : ErrorCode) : (b.completeError e).Inv where
  bufCanonical := h.bufCanonical
  cmpLegal := h.cmpLegal
  errcodeLegal := e.code_le
  busyStatus := nofun
  busyCommand := nofun

theorem setIe (ie : Bool) : Block.Inv { b with ie := ie } := { h with }

/-- DONE is 0 while busy, and an acknowledgement only clears it. -/
theorem ackStatus (v : Word) : (b.ackStatus v).Inv :=
  { h with
    busyStatus := fun hb => by
      obtain ⟨hdone, herr⟩ := h.busyStatus hb
      exact ⟨by rw [Block.ackStatus_done, hdone, Bool.false_and], herr⟩ }

theorem dropWrite : b.dropWrite.Inv := { h with }

/-- An acceptance makes the block busy with STATUS and `pending` as R161 sets them. -/
theorem accept (v : Word) : (b.accept v).Inv :=
  { h with
    errcodeLegal := Nat.zero_le 4
    busyStatus := fun _ => ⟨rfl, rfl⟩
    busyCommand := fun _ => rfl }

theorem setArg (v : Word) : (b.setArg v).Inv := { h with }

theorem setBusWord {k : Nat} (hk : k < cfg.nb / 4) (v : Word) : (b.setBuf (b.buf.writeBusWord k v)).Inv :=
  { h with bufCanonical := Memory.wf_writeBusWord b.buf cfg.nb k v h.bufCanonical (by omega) }

end Block.Inv

/-- Settles O48: each effect a step can have keeps the invariant. -/
theorem stepKeepsTheInvariant : Obligations.StepKeepsTheInvariant := by
  intro s t hs h
  have hinv : s.block.Inv := hs
  obtain ⟨b, events, reads, rfl, heffect⟩ := step_effect h
  show b.Inv
  cases heffect with
  | unchanged => exact hinv
  | reset => exact Block.reset_inv s.cfg
  | illegal => exact hinv.completeError _
  | completion i _ _ _ hdone hwrites => exact hinv.completed hwrites hdone
  | writeIe v => exact hinv.setIe _
  | ackStatus v => exact hinv.ackStatus v
  | dropWrite => exact hinv.dropWrite
  | accept v => exact hinv.accept v
  | setArg v => exact hinv.setArg v
  | setBuf k v hk => exact hinv.setBusWord hk v

/-- Settles O49: no reset state is busy, and its BUF, STATUS.CMP and ERRCODE are those of `Block.reset`. -/
theorem resetMeetsTheInvariant : Obligations.ResetMeetsTheInvariant :=
  ⟨Block.reset_inv _, fun cfg => Block.reset_inv cfg⟩

end invariant

/-! ### What a step leaves unchanged outside a reset (R20, R23, R24, R25, R27) -/

/-- Settles O50: `step_effect` gives a next state of the same configuration. -/
theorem noStepChangesTheConfiguration : Obligations.NoStepChangesTheConfiguration := by
  intro s t h
  obtain ⟨b, events, reads, rfl, -⟩ := step_effect h
  exact ⟨rfl, rfl⟩

/-- Settles O51: of all effects only a completion writes a flag, and only its own command's. -/
theorem flagsAreWrittenOnlyByTheirCommands : Obligations.FlagsAreWrittenOnlyByTheirCommands := by
  intro s t h hreset
  obtain ⟨b, events, reads, rfl, heffect⟩ := step_effect h
  cases heffect with
  | reset hr => exact absurd hr (by simp [hreset])
  | completion i _ hengine hrun _ hwrites =>
    refine ⟨fun hsub => hwrites.borrow ?_, fun hcmp => hwrites.cmp ?_⟩
    · rintro rd rs1 rs2 rfl
      exact hsub rd rs1 rs2 ⟨hengine, hrun⟩
    · rintro rs1 rs2 rfl
      exact hcmp rs1 rs2 ⟨hengine, hrun⟩
  | _ => exact ⟨fun _ => rfl, fun _ => rfl⟩

/-- Settles O52: a completion writes its own destinations, an idle host write ARG or one word of BUF, and no other effect
but a reset writes data. -/
theorem dataChangesOnlyWhereTheSpecSays : Obligations.DataChangesOnlyWhereTheSpecSays := by
  intro s t h hreset
  obtain ⟨b, events, reads, rfl, heffect⟩ := step_effect h
  cases heffect with
  | reset hr => exact absurd hr (by simp [hreset])
  | completion i _ hengine hrun _ hwrites =>
    refine ⟨fun j hj => congrArg BitVec.toNat (hwrites.reg j fun hd => hj i ⟨hengine, hrun, hd⟩),
      fun htob _ => hwrites.buf ?_, fun _ => hwrites.arg⟩
    rintro rs1 rfl
    exact htob rs1 ⟨hengine, hrun⟩
  | setArg v hwrite hidle => exact ⟨fun _ _ => rfl, fun _ _ => rfl, fun harg => absurd ⟨hwrite, hidle⟩ (harg v)⟩
  | setBuf k v hk hwrite hidle =>
    exact ⟨fun _ _ => rfl, fun _ hbuf => absurd ⟨hk, hwrite, hidle⟩ (hbuf k v), fun _ => rfl⟩
  | _ => exact ⟨fun _ _ => rfl, fun _ _ => rfl, fun _ => rfl⟩

/-! ### Reset (R34, 70_reset_and_hazards.md R191) -/

/-- Settles O8: the step of a reset puts `Block.reset` in place of the block, whatever it held. -/
theorem resetPutsEveryFieldAtItsResetValue : Obligations.ResetPutsEveryFieldAtItsResetValue := by
  intro s h
  exact ⟨Block.reset s.cfg, step_reset s h, Block.reg_reset s.cfg, fun _ => rfl, rfl, rfl, rfl,
    Block.statusWord_reset s.cfg, rfl, rfl, rfl, rfl, rfl, rfl, rfl, rfl, rfl, rfl⟩

/-! ### The interrupt line (R33, 60_exceptions.md R168) -/

section interrupt

variable {s : State} {a : BusAccess}

/-- An access that breaks a hazard rule is a write, and the block drops it (R162, R194, R195). -/
theorem memWrite_of_breaksHazardRule (h : a.breaksHazardRule s = true) :
    ∃ v, a.kind = .write v ∧ s.block.memWrite (a.addr - s.cfg.base) v = s.block.dropWrite := by
  obtain ⟨hbusy, hinput⟩ := Bool.and_eq_true_iff.mp h
  have hdrop : ∀ b, s.block.unlessBusy b = s.block.dropWrite := fun _ => if_pos hbusy
  unfold BusAccess.writesCommandInput at hinput
  split at hinput
  case h_1 v hkind hreg | h_2 v hkind hreg | h_3 v _ hkind hreg =>
    exact ⟨v, hkind, by simp only [Block.memWrite, hreg, hdrop]⟩
  case h_4 => cases hinput

/-- A dropped write sets OVERRUN and does nothing else (R162). -/
theorem step_of_breaksHazardRule (hnext : s.nextAccess a) (h : a.breaksHazardRule s = true) :
    step s = .next (s.popEvent.withBlock s.block.dropWrite) := by
  obtain ⟨v, hkind, hwrite⟩ := memWrite_of_breaksHazardRule h
  rw [step_access s hnext, hkind]
  simp only [hwrite]

/-- A write to CTRL that is no reset writes IE alone (10_state.md R28). -/
theorem Block.writeCtrl_of_not_srst {cfg : Config} (b : Block cfg) {v : Word} (h : v.getLsbD 1 = false) :
    b.writeCtrl v = { b with ie := v.getLsbD 0 } := if_neg (ne_true_of_eq_false h)

/-- The line is low when DONE is. -/
theorem Block.irq_of_not_done {cfg : Config} {b : Block cfg} (h : b.done = false) : b.irq = false := by
  rw [Block.irq, h, Bool.and_false]

end interrupt

/-- Settles O53: each clause names the next event, and the step's lemma for that event gives IE and DONE after it. -/
theorem interruptLineFollowsCompletion : Obligations.InterruptLineFollowsCompletion := by
  intro s t h
  refine ⟨rfl, fun hengine hbusy => ?_, fun v hwrite hidle => ?_, fun v hwrite hv => ?_, fun hreset => ?_,
    fun v hwrite hie hsrst => ?_, fun a hnext hhazard => ?_⟩
  · obtain ⟨b, hturn, hdone, hie⟩ := engineTurn_completes s.popEvent hbusy
    obtain rfl := step_next_unique h ((step_engine s hengine).trans hturn)
    show (b.ie && b.done) = s.block.ie
    rw [hdone.done, Bool.and_true, hie]
  · obtain rfl := step_next_unique h (step_write s hwrite)
    rw [Block.memWrite_cmd, Block.unlessBusy_idle _ hidle]
    exact Block.irq_of_not_done rfl
  · obtain rfl := step_next_unique h (step_write s hwrite)
    exact Block.irq_of_not_done (by simp [hv])
  · obtain rfl := step_next_unique h (step_reset s hreset)
    rfl
  · obtain rfl := step_next_unique h (step_write s hwrite)
    rw [Block.memWrite_ctrl, s.block.writeCtrl_of_not_srst hsrst, hie]
    exact ⟨Bool.false_and _, rfl⟩
  · obtain rfl := step_next_unique h (step_of_breaksHazardRule hnext hhazard)
    rfl

/-! ### The host and the operand registers (R20) -/

section hostAndRegisters

variable {cfg : Config} (b : Block cfg) (regs : Vector (BitVec cfg.width) 16) {off : Nat} {v : Word}

/-- CTRL has one offset (20_memory.md R41). -/
theorem windowReg_eq_ctrl (h : windowReg cfg off = .ctrl) : off = 0x004 := by
  unfold windowReg at h
  split_ifs at h with _ h1
  exact h1

/-- The block with another register file. -/
def Block.withRegs : Block cfg := { b with regs := regs }

@[simp] theorem Block.withRegs_regs : (b.withRegs regs).regs = regs := rfl

/-- No register of the window shows an operand register (20_memory.md R43). -/
theorem Block.memRead_withRegs : (b.withRegs regs).memRead off = b.memRead off := by
  unfold Block.memRead
  cases windowReg cfg off <;> rfl

theorem Block.unlessBusy_withRegs (written : Block cfg) :
    (b.withRegs regs).unlessBusy (written.withRegs regs) = (b.unlessBusy written).withRegs regs := by
  by_cases hidle : b.pending = none
  · rw [b.unlessBusy_idle hidle, (b.withRegs regs).unlessBusy_idle hidle]
  · rw [b.unlessBusy_busy hidle, (b.withRegs regs).unlessBusy_busy hidle]
    rfl

theorem Block.writeCtrl_withRegs (h : v.getLsbD 1 = false) :
    (b.withRegs regs).writeCtrl v = (b.writeCtrl v).withRegs regs := by
  rw [b.writeCtrl_of_not_srst h, (b.withRegs regs).writeCtrl_of_not_srst h]
  rfl

/-- A write that is no reset carries the register file through and is blind to it (20_memory.md R44). -/
theorem Block.memWrite_withRegs (h : ¬ (off = 0x004 ∧ v.getLsbD 1 = true)) :
    (b.withRegs regs).memWrite off v = (b.memWrite off v).withRegs regs := by
  unfold Block.memWrite
  cases hreg : windowReg cfg off with
  | ctrl => exact b.writeCtrl_withRegs regs (Bool.eq_false_iff.mpr fun hv => h ⟨windowReg_eq_ctrl hreg, hv⟩)
  | cmd => exact b.unlessBusy_withRegs regs (b.accept v)
  | arg => exact b.unlessBusy_withRegs regs (b.setArg v)
  | buf k => exact b.unlessBusy_withRegs regs (b.setBuf (b.buf.writeBusWord k v))
  | param => rfl
  | status => rfl
  | reserved => rfl

end hostAndRegisters

/-- Settles O24: reads and writes are blind to the register file, and a write carries it through unless it resets. -/
theorem hostAccessesNeitherSeeNorChangeRegisters : Obligations.HostAccessesNeitherSeeNorChangeRegisters := by
  intro cfg b regs off
  refine ⟨b.memRead_withRegs regs, fun v => ⟨fun h => ⟨b.memWrite_withRegs regs h, ?_⟩, ?_⟩⟩
  · have hkeep : b.memWrite off v = (b.memWrite off v).withRegs b.regs := b.memWrite_withRegs b.regs h
    rw [hkeep, Block.withRegs_regs]
  · rintro ⟨rfl, hv⟩
    exact if_pos hv

/-! ### The fields of PARAM, CTRL and STATUS (R27 to R30) -/

section fields

variable (cfg : Config) (b : Block cfg)

theorem paramWord_n : ((paramWord cfg).extractLsb' 0 16).toNat = cfg.n := by
  have hfield : (paramWord cfg).extractLsb' 0 16 = BitVec.ofNat 16 cfg.n := by
    apply BitVec.eq_of_getLsbD_eq
    intro k hk
    rw [BitVec.getLsbD_extractLsb', getLsbD_paramWord, BitVec.getLsbD_ofNat]
    simp [hk]
  rw [hfield, BitVec.toNat_ofNat, Nat.mod_eq_of_lt cfg.n_lt]

theorem paramWord_w : ((paramWord cfg).extractLsb' 16 8).toNat = cfg.w := by
  have hfield : (paramWord cfg).extractLsb' 16 8 = BitVec.ofNat 8 cfg.w := by
    apply BitVec.eq_of_getLsbD_eq
    intro k hk
    rw [BitVec.getLsbD_extractLsb', getLsbD_paramWord, BitVec.getLsbD_ofNat]
    simp [hk, show 16 + k < 24 by omega]
  rw [hfield, BitVec.toNat_ofNat, Nat.mod_eq_of_lt cfg.w_lt]

/-- NREG - 1 = 15 (R27). -/
theorem paramWord_nregm1 : (paramWord cfg).extractLsb' 24 4 = 0xF := by
  apply BitVec.eq_of_getLsbD_eq
  intro k hk
  rw [BitVec.getLsbD_extractLsb', getLsbD_paramWord]
  interval_cases k <;> rfl

theorem paramWord_reserved : (paramWord cfg).extractLsb' 28 4 = 0 := by
  apply BitVec.eq_of_getLsbD_eq
  intro k hk
  rw [BitVec.getLsbD_extractLsb', getLsbD_paramWord]
  interval_cases k <;> rfl

theorem Block.ctrlWord_reserved : b.ctrlWord.extractLsb' 1 31 = 0 := by
  apply BitVec.eq_of_getLsbD_eq
  intro k hk
  rw [BitVec.getLsbD_extractLsb', b.getLsbD_ctrlWord]
  simp

theorem Block.statusWord_reserved : b.statusWord.extractLsb' 12 20 = 0 := by
  apply BitVec.eq_of_getLsbD_eq
  intro k hk
  rw [BitVec.getLsbD_extractLsb', b.getLsbD_statusWord]
  interval_cases k <;> rfl

end fields

/-- Settles O20: the three words, field by field. -/
theorem controlRegisterFields : Obligations.ControlRegisterFields := fun s =>
  ⟨paramWord_n s.cfg, paramWord_w s.cfg, paramWord_nregm1 s.cfg, paramWord_reserved s.cfg,
    s.block.getLsbD_ctrlWord 0, s.block.ctrlWord_reserved,
    s.block.statusWord_busy, s.block.statusWord_done, s.block.statusWord_err, s.block.statusWord_borrow,
    s.block.statusWord_cmp, s.block.statusWord_overrun, s.block.getLsbD_statusWord 7, s.block.statusWord_errcode,
    s.block.statusWord_reserved⟩

/-! ### The frame of SUB and CMP (R23) -/

/-- Settles O41: SUB may write its destination and BORROW, CMP only STATUS.CMP. -/
theorem flagCommandsFrame : Obligations.FlagCommandsFrame := by
  intro s rd rs1 rs2
  constructor
  · obtain ⟨b, hexec, -, hwrites⟩ := exec_completes s (.sub rd rs1 rs2)
    exact ⟨b, hexec, fun j hj => hwrites.reg j fun hd => hj (Option.some.inj hd).symm,
      fun k => congrArg (·.read k) (hwrites.buf nofun), hwrites.cmp nofun, hwrites.arg, hwrites.cmd, hwrites.ie,
      hwrites.overrun⟩
  · obtain ⟨b, hexec, -, hwrites⟩ := exec_completes s (.cmp rs1 rs2)
    exact ⟨b, hexec, fun j => hwrites.reg j nofun, fun k => congrArg (·.read k) (hwrites.buf nofun),
      hwrites.borrow nofun, hwrites.arg, hwrites.cmd, hwrites.ie, hwrites.overrun⟩

end Sys2Proof.Machine
end

section
/-! PROOFS. The family of 20_memory.md: which accesses the block performs (R40, R45), what a read returns and a write does
at each offset (R41 to R44, R46), and that no access between acceptance and completion reaches the command (R48). -/

namespace Sys2Proof.Machine

/-! ### Which accesses are performed (R40, R45) -/

section judgement

variable {s : State} {a : BusAccess}

/-- An access that is the oldest event is judged and done on the state without it. -/
theorem step_hostAccess (h : s.events.head? = some (.access a)) : step s = s.popEvent.hostAccess a := by
  obtain ⟨rest, hevents⟩ := List.head?_eq_some_iff.mp h
  simp only [step, State.popEvent, hevents, handleEvent, List.tail_cons]

theorem inWindow_iff (cfg : Config) (addr : Nat) :
    inWindow cfg addr = true ↔ cfg.base ≤ addr ∧ addr < cfg.base + cfg.window := by
  rw [inWindow, Bool.and_eq_true, decide_eq_true_eq, decide_eq_true_eq]

theorem BusAccess.legal_iff (cfg : Config) :
    a.legal cfg = true ↔ a.width = .bits32 ∧ a.lanes = 0b1111 ∧ (a.addr - cfg.base) % 4 = 0 := by
  simp only [BusAccess.legal, Bool.and_eq_true, beq_iff_eq, and_assoc]

/-- A performed access is a step (R43, R44). -/
theorem step_next_of_access (h : s.nextAccess a) : ∃ t, step s = .next t := by
  rw [step_access s h]
  cases a.kind with
  | read => exact ⟨_, rfl⟩
  | write v => exact ⟨_, rfl⟩

theorem State.hostAccess_outside (h : ¬ inWindow s.cfg a.addr = true) :
    s.hostAccess a = .fault .addressOutsideWindow := by
  simp [State.hostAccess, h]

theorem State.hostAccess_illegal (hwindow : inWindow s.cfg a.addr = true) (h : ¬ a.legal s.cfg = true) :
    s.hostAccess a = .refused .busProtocolViolation := by
  simp [State.hostAccess, hwindow, h]

end judgement

/-- Settles O22: inside the window legality alone decides between a step and a refusal. -/
theorem onlyAlignedFullWordAccessesArePerformed : Obligations.OnlyAlignedFullWordAccessesArePerformed := by
  intro s a hhead hlo hhi
  constructor
  · intro hlegal
    exact step_next_of_access ⟨hhead, (a.performed_iff s.cfg).mpr ⟨⟨hlo, hhi⟩, hlegal⟩⟩
  · intro hillegal
    rw [step_hostAccess hhead]
    exact State.hostAccess_illegal (s := s.popEvent) ((inWindow_iff s.cfg a.addr).mpr ⟨hlo, hhi⟩)
      (mt (BusAccess.legal_iff s.cfg).mp hillegal)

/-- Settles O23: the address is judged before anything else, and it is on neither side in the window. -/
theorem accessOutsideTheWindowFaults : Obligations.AccessOutsideTheWindowFaults := by
  intro s a hhead hout
  rw [step_hostAccess hhead]
  refine State.hostAccess_outside (s := s.popEvent) fun hin => ?_
  obtain ⟨hlo, hhi⟩ := (inWindow_iff s.cfg a.addr).mp hin
  exact hout.elim (Nat.not_lt_of_le hlo) (Nat.not_le_of_lt hhi)

/-! ### The lanes of a bus word (R46) -/

section lanes

/-- A bus word is its four bytes. -/
theorem word_ext_bytes {v w : Word} (h : ∀ i, i < 4 → v.extractLsb' (8 * i) 8 = w.extractLsb' (8 * i) 8) : v = w := by
  apply BitVec.eq_of_getLsbD_eq
  intro n hn
  have hbyte := congrArg (·.getLsbD (n % 8)) (h (n / 8) (by omega))
  have hmod : n % 8 < 8 := Nat.mod_lt n (by decide)
  simpa only [BitVec.getLsbD_extractLsb', hmod, decide_true, Bool.true_and, Nat.div_add_mod] using hbyte

variable (m : Memory) (k : Nat) (v : Word)

theorem Memory.read_writeBusWord_lane {i : Nat} (hi : i < 4) :
    (m.writeBusWord k v).read (4 * k + i) = v.extractLsb' (8 * i) 8 := by
  rw [Memory.read_writeBusWord, if_pos (by omega), Nat.add_sub_cancel_left]

theorem Memory.read_writeBusWord_other {j : Nat} (hj : j < 4 * k ∨ 4 * k + 4 ≤ j) :
    (m.writeBusWord k v).read j = m.read j := by
  rw [Memory.read_writeBusWord, if_neg (by omega)]

/-- A bus word written reads back. -/
theorem Memory.busWord_writeBusWord : (m.writeBusWord k v).busWord k = v :=
  word_ext_bytes fun i hi => by rw [Memory.extract_busWord _ _ hi, Memory.read_writeBusWord_lane m k v hi]

end lanes

/-- Settles O21: a read of bus word `k` is `Memory.busWord`, and an idle write of it is `Memory.writeBusWord`. -/
theorem bufWindowLanesAreLittleEndian : Obligations.BufWindowLanesAreLittleEndian := by
  intro cfg b k hk
  refine ⟨b.memRead_buf hk, fun v hidle => ?_⟩
  rw [b.memWrite_buf v hk, b.unlessBusy_idle hidle, Block.memRead_buf _ hk]
  exact ⟨b.buf.busWord_writeBusWord k v, fun i hi => b.buf.read_writeBusWord_lane k v hi,
    fun j hj => b.buf.read_writeBusWord_other k v hj⟩

/-! ### Reads and writes by offset (R41 to R44) -/

section offsets

variable {cfg : Config} {off : Nat}

/-- The two ranges R42 names as reserved. -/
theorem windowReg_reserved_of_range (h : (0x014 ≤ off ∧ off < 0x400) ∨ 0x400 + cfg.nb ≤ off) :
    windowReg cfg off = .reserved := by
  have hnotBuf : ∀ k, k < cfg.nb / 4 → off ≠ 0x400 + 4 * k := by omega
  exact windowReg_reserved cfg (by omega) (by omega) (by omega) (by omega) (by omega) hnotBuf

/-- An aligned offset between the ends of the BUF window is that of one of its words. -/
theorem exists_busWord_of_aligned (halign : off % 4 = 0) (hlo : 0x400 ≤ off) (hhi : off < 0x400 + cfg.nb) :
    ∃ k, k < cfg.nb / 4 ∧ off = 0x400 + 4 * k := by
  have := cfg.nb_mod
  exact ⟨(off - 0x400) / 4, by omega, by omega⟩

variable (b : Block cfg) (v : Word)

/-- A write to CMD, ARG or BUF is dropped while busy (R48). -/
theorem Block.memWrite_dropped (h : off = 0x00C ∨ off = 0x010 ∨ ∃ k, k < cfg.nb / 4 ∧ off = 0x400 + 4 * k)
    (hbusy : b.pending ≠ none) : b.memWrite off v = b.dropWrite := by
  obtain rfl | rfl | ⟨k, hk, rfl⟩ := h
  · rw [Block.memWrite_cmd, b.unlessBusy_busy hbusy]
  · rw [Block.memWrite_arg, b.unlessBusy_busy hbusy]
  · rw [b.memWrite_buf v hk, b.unlessBusy_busy hbusy]

theorem Block.memWrite_ctrl_srst (h : v.getLsbD 1 = true) : b.memWrite 0x004 v = Block.reset cfg := if_pos h

theorem Block.memWrite_ctrl_ie (h : v.getLsbD 1 = false) : b.memWrite 0x004 v = { b with ie := v.getLsbD 0 } :=
  b.writeCtrl_of_not_srst h

/-- The two W1C bits of STATUS as R44 writes them: a 1 clears, a 0 keeps. -/
theorem Block.ackStatus_eq_ite : b.ackStatus v =
    { b with done := (if v.getLsbD 1 then false else b.done)
             overrun := (if v.getLsbD 6 then false else b.overrun) } := by
  have clear (old bit : Bool) : (old && !bit) = if bit then false else old := by cases old <;> cases bit <;> rfl
  rw [Block.ackStatus, clear, clear]

end offsets

/-- Settles O17: the step of a write is `memWrite`, which each offset of R44's table names. -/
theorem memWriteActsByOffset : Obligations.MemWriteActsByOffset := by
  intro s off v hwrite
  rw [step_write s hwrite]
  refine ⟨?param, ?reset, ?ie, ?status, ?cmd, ?arg, ?buf, ?dropped, ?reserved⟩
  case param => rintro rfl; rfl
  case reset => rintro rfl hv; rw [s.block.memWrite_ctrl_srst v hv]
  case ie => rintro rfl hv; rw [s.block.memWrite_ctrl_ie v hv]
  case status => rintro rfl; rw [Block.memWrite_status, Block.ackStatus_eq_ite]
  case cmd => rintro rfl hidle; rw [Block.memWrite_cmd, s.block.unlessBusy_idle hidle]; rfl
  case arg => rintro rfl hidle; rw [Block.memWrite_arg, s.block.unlessBusy_idle hidle]; rfl
  case buf =>
    rintro k hk rfl hidle
    rw [s.block.memWrite_buf v hk, s.block.unlessBusy_idle hidle]
    exact ⟨_, rfl, fun i hi => s.block.buf.read_writeBusWord_lane k v hi,
      fun j hj => s.block.buf.read_writeBusWord_other k v hj⟩
  case dropped => intro hoff hbusy; rw [s.block.memWrite_dropped v hoff hbusy]; rfl
  case reserved =>
    intro h0 h1 h2 h3 h4 hbuf
    rw [s.block.memWrite_reserved v (windowReg_reserved s.cfg h0 h1 h2 h3 h4 hbuf)]

/-- Settles O18: the word read is `memRead`, and the step logs it and does nothing else. -/
theorem memReadReturnsTheRegisterAndChangesNothing : Obligations.MemReadReturnsTheRegisterAndChangesNothing := by
  intro s off hread
  refine ⟨s.block.memRead off, step_read s hread, ?param, ?ctrl, ?status, ?cmd, ?arg, ?buf, ?reserved⟩
  case param | ctrl | status | cmd | arg => rintro rfl; rfl
  case buf =>
    rintro k hk rfl i hi
    rw [s.block.memRead_buf hk, Memory.extract_busWord _ _ hi]
  case reserved => exact fun hrange => s.block.memRead_reserved (windowReg_reserved_of_range hrange)

/-- Settles O19: both ranges are `reserved` in the map. -/
theorem reservedOffsetsReadZeroAndIgnoreWrites : Obligations.ReservedOffsetsReadZeroAndIgnoreWrites := by
  intro s off hrange
  have hreserved : windowReg s.cfg off = .reserved := windowReg_reserved_of_range hrange
  constructor
  · intro hread
    rw [step_read s hread, s.block.memRead_reserved hreserved]
  · intro v hwrite
    rw [step_write s hwrite, s.block.memWrite_reserved v hreserved]

/-! ### Accesses while busy (R48) -/

section busy

variable {cfg : Config} {b b' b'' : Block cfg}

/-- The blocks differ in IE, DONE and OVERRUN at most: in nothing a running command reads or writes, but the DONE of its
completion. -/
structure Block.SameCommandState (b b' : Block cfg) : Prop where
  regs : b'.regs = b.regs
  buf : b'.buf = b.buf
  arg : b'.arg = b.arg
  cmd : b'.cmd = b.cmd
  borrow : b'.borrow = b.borrow
  cmp : b'.cmp = b.cmp
  errcode : b'.errcode = b.errcode
  pending : b'.pending = b.pending

namespace Block.SameCommandState

theorem refl (b : Block cfg) : b.SameCommandState b := ⟨rfl, rfl, rfl, rfl, rfl, rfl, rfl, rfl⟩

theorem trans (h : b.SameCommandState b') (h' : b'.SameCommandState b'') : b.SameCommandState b'' where
  regs := h'.regs.trans h.regs
  buf := h'.buf.trans h.buf
  arg := h'.arg.trans h.arg
  cmd := h'.cmd.trans h.cmd
  borrow := h'.borrow.trans h.borrow
  cmp := h'.cmp.trans h.cmp
  errcode := h'.errcode.trans h.errcode
  pending := h'.pending.trans h.pending

theorem eq_update (h : b.SameCommandState b') :
    b' = { b with ie := b'.ie, overrun := b'.overrun, done := b'.done } := by
  obtain ⟨hregs, hbuf, harg, hcmd, hborrow, hcmp, herrcode, hpending⟩ := h
  cases b'
  subst hregs hbuf harg hcmd hborrow hcmp herrcode hpending
  rfl

end Block.SameCommandState

/-- No write but a reset reaches a running command: it is dropped, or it writes IE, or it clears DONE and OVERRUN. -/
theorem Block.memWrite_sameCommandState (hbusy : b.pending ≠ none) {off : Nat} {v : Word}
    (hreset : ¬ (off = 0x004 ∧ v.getLsbD 1 = true)) : b.SameCommandState (b.memWrite off v) := by
  obtain e | ⟨hoff, hv, -⟩ | ⟨-, -, e⟩ | ⟨-, e⟩ | ⟨-, e⟩ | ⟨-, hidle, -⟩ | ⟨-, hidle, -⟩ | ⟨-, -, -, hidle, -⟩ :=
    b.memWrite_cases v off
  case inl => rw [e]; exact .refl b
  case inr.inl => exact absurd ⟨hoff, hv⟩ hreset
  case inr.inr.inl | inr.inr.inr.inl | inr.inr.inr.inr.inl => rw [e]; exact ⟨rfl, rfl, rfl, rfl, rfl, rfl, rfl, rfl⟩
  all_goals exact absurd hidle hbusy

end busy

/-- Settles O16: while busy each offset has its own write, and all of them but a reset keep the command's state. -/
theorem writesWhileBusyCannotReachTheCommand : Obligations.WritesWhileBusyCannotReachTheCommand := by
  constructor
  · intro s off v hwrite hbusy
    rw [step_write s hwrite]
    refine ⟨fun hoff => ?_, ?_, ?_, ?_, fun hreset => ?_⟩
    · have halign : off % 4 = 0 := by simpa using nextAccess_aligned s hwrite
      have hoff' := hoff.imp_right (Or.imp_right fun h => exists_busWord_of_aligned halign h.1 h.2)
      rw [s.block.memWrite_dropped v hoff' hbusy]
      rfl
    · rintro rfl hv
      rw [s.block.memWrite_ctrl_ie v hv]
    · rintro rfl hv
      rw [s.block.memWrite_ctrl_srst v hv]
    · rintro rfl
      rfl
    · have hsrst : ¬ (off = 0x004 ∧ v.getLsbD 1 = true) := by
        rintro ⟨rfl, hv⟩
        exact ne_true_of_eq_false hreset (resetNext_of_srst hwrite hv)
      have h := Block.memWrite_sameCommandState hbusy hsrst
      exact ⟨_, rfl, h.regs, h.buf, h.arg, h.cmd, h.pending⟩
  · intro s off v hwrite hoff
    rw [step_write s hwrite]
    obtain rfl | hrange := hoff
    · rfl
    · rw [s.block.memWrite_reserved v (windowReg_reserved_of_range hrange)]

/-! ### The accesses between acceptance and completion (R48, R52, R203) -/

section latency

variable {cfg : Config} {b b' : Block cfg}

/-- An access that is no soft reset does not write SRST = 1 to CTRL (10_state.md R28). -/
theorem BusAccess.not_srst_of_softReset {a : BusAccess} {v : Word} (hkind : a.kind = .write v)
    (h : a.softReset cfg = false) : ¬ (a.addr - cfg.base = 0x004 ∧ v.getLsbD 1 = true) := by
  rintro ⟨hoff, hv⟩
  simp only [BusAccess.softReset, hkind, hoff, windowReg_ctrl, hv, Bool.true_eq_false] at h

/-- One performed access while busy, short of a reset: the command's state stays, and a read is logged. -/
theorem step_access_busy {a : BusAccess} (hp : a.performed cfg = true) (hr : a.softReset cfg = false)
    (hbusy : b.pending ≠ none) (es : List Event) (reads : List Word) :
    ∃ (b' : Block cfg) (log : List Word),
      step ⟨cfg, b, .access a :: es, reads⟩ = .next ⟨cfg, b', es, log ++ reads⟩ ∧ b.SameCommandState b' := by
  rw [step_access ⟨cfg, b, .access a :: es, reads⟩ ⟨rfl, hp⟩]
  cases hkind : a.kind with
  | read => exact ⟨b, [_], rfl, .refl b⟩
  | write v => exact ⟨_, [], rfl, Block.memWrite_sameCommandState hbusy (BusAccess.not_srst_of_softReset hkind hr)⟩

/-- Any number of them, by induction: the run goes on from the same command's state. -/
theorem run_accesses_busy (as : List BusAccess) (has : ∀ a ∈ as, a.performed cfg = true ∧ a.softReset cfg = false)
    (hbusy : b.pending ≠ none) (es : List Event) (reads : List Word) (k : Nat) :
    ∃ (b' : Block cfg) (log : List Word),
      Host.Core.run Sys2Proof.core (as.length + k) ⟨cfg, b, as.map Event.access ++ es, reads⟩ =
        Host.Core.run Sys2Proof.core k ⟨cfg, b', es, log ++ reads⟩ ∧ b.SameCommandState b' := by
  induction as generalizing b reads with
  | nil => exact ⟨b, [], by simp, .refl b⟩
  | cons a as ih =>
    obtain ⟨⟨hp, hr⟩, has⟩ := List.forall_mem_cons.mp has
    obtain ⟨b₁, log₁, hstep, hsame₁⟩ := step_access_busy hp hr hbusy (as.map Event.access ++ es) reads
    obtain ⟨b₂, log₂, hrun, hsame₂⟩ := ih (b := b₁) has (hsame₁.pending ▸ hbusy) (log₁ ++ reads)
    refine ⟨b₂, log₂ ++ log₁, ?_, hsame₁.trans hsame₂⟩
    rw [List.length_cons, Nat.add_right_comm, List.append_assoc]
    exact (run_succ _ _ hstep).trans hrun

/-- A command completes alike from blocks that differ in IE, DONE and OVERRUN at most. -/
theorem exec_sameCommandState (h : b.SameCommandState b') (i : Instr) (es es' : List Event)
    (reads reads' : List Word) : ∃ d d' : Block cfg,
      exec i ⟨cfg, b, es, reads⟩ = .next ⟨cfg, d, es, reads⟩ ∧
      exec i ⟨cfg, b', es', reads'⟩ = .next ⟨cfg, d', es', reads'⟩ ∧ d.SameCommandState d' := by
  obtain ⟨f, hexec, hdata⟩ := exec_eq_blockFunction cfg i
  have heq : f b' = { f b with ie := b'.ie, overrun := b'.overrun } := by
    rw [h.eq_update]
    exact hdata b b'.ie b'.overrun b'.done b.errcode b.pending
  exact ⟨f b, f b', hexec b es reads, hexec b' es' reads', heq ▸ ⟨rfl, rfl, rfl, rfl, rfl, rfl, rfl, rfl⟩⟩

end latency

/-- Settles O55: the accesses leave the command's state as it was accepted, and the completion depends on nothing else. -/
theorem latencyDoesNotChangeTheResult : Obligations.LatencyDoesNotChangeTheResult := by
  rintro ⟨cfg, b, events, reads⟩ i as rest hrun has hevents
  obtain rfl : events = as.map Event.access ++ .engine :: rest := hevents
  have hpending : b.pending = some (.instr i) := hrun
  obtain ⟨b₁, log, haccesses, hsame⟩ :=
    run_accesses_busy (b := b) as has (by simp [hpending]) (.engine :: rest) reads 1
  obtain ⟨d, d', hexec, hexec', hresult⟩ := exec_sameCommandState hsame i
    (as.map Event.access ++ .engine :: rest) rest reads (log ++ reads)
  have hturn : step ⟨cfg, b₁, .engine :: rest, log ++ reads⟩ = .next ⟨cfg, d', rest, log ++ reads⟩ :=
    (engineTurn_instr ⟨cfg, b₁, rest, log ++ reads⟩ (hsame.pending.trans hpending)).trans hexec'
  obtain ⟨c, hc, hdone, -⟩ := exec_completes ⟨cfg, b₁, rest, log ++ reads⟩ i
  obtain rfl : c = d' := by cases hc.symm.trans hexec'; rfl
  exact ⟨d, c, log, hexec, haccesses.trans ((run_one _).trans hturn), hresult.regs, hresult.buf, hresult.borrow,
    hresult.cmp, hresult.errcode, hdone.done, hdone.pending, hresult.arg, hresult.cmd⟩

end Sys2Proof.Machine
end

section
/-! PROOFS. The family of 30_encoding.md: a word decodes to a command exactly when it is the command's word (R61, R62), the
(match, mask) rows say the same (R62), the words as R66 writes them, what an illegal word does (R64), and the registers a
command reads (R62, R80). -/

namespace Sys2Proof

open Sys2Proof.Machine

/-! ### The fields of a word, and decoding as the inverse of encoding (R61, R62) -/

section fields

variable {w : Word} {op : BitVec 8} {rd rs1 rs2 rs3 : Reg}

/-- R61 both ways: a word has these fields exactly when it is put together from them. -/
theorem hasFields_iff : HasFields w op rd rs1 rs2 rs3 ↔ commandWord op rd rs1 rs2 rs3 = w := by
  constructor
  · rintro ⟨rfl, rfl, rfl, rfl, rfl, hreserved⟩
    exact commandWord_fields w hreserved
  · rintro rfl
    constructor <;> simp

/-- OP as the number the decoder compares. -/
theorem opField_eq_of_toNat {n : Nat} (h : (opField w).toNat = n) : opField w = BitVec.ofNat 8 n := by
  rw [← h, BitVec.ofNat_toNat, BitVec.setWidth_eq]

end fields

/-- The decoder takes the word of a command. -/
theorem decodeWord_encode (i : Instr) : decodeWord (encode i) = .ok i := by
  cases i <;> simp [decodeWord, encode, Instr.opcode, unusedZero]

/-- The decoder takes no other word for the command: its checks leave no bit of the word free. -/
theorem encode_of_decodeWord {w : Word} {i : Instr} (h : decodeWord w = .ok i) : encode i = w := by
  unfold decodeWord at h
  split_ifs at h with hreserved
  have hword := commandWord_fields w (not_not.mp hreserved)
  split at h
  case h_11 => cases h
  all_goals
    -- One row of R62: OP is the row's, and the fields it leaves unused are 0.
    next hop =>
    obtain ⟨hunused, rfl⟩ := unusedZero_eq_ok.mp h
    rw [opField_eq_of_toNat hop] at hword
    simp_all [encode, Instr.opcode]

theorem decode_encode (i : Instr) : decode (encode i) = .instr i := decode_eq_instr.mpr (decodeWord_encode i)

/-- A word decodes to a command exactly when it is the command's word. -/
theorem decode_eq_instr_iff {w : Word} {i : Instr} : decode w = .instr i ↔ encode i = w := by
  constructor
  · exact fun h => encode_of_decodeWord (decode_eq_instr.mp h)
  · rintro rfl
    exact decode_encode i

/-- Settles O1: the decoder reads back the fields that the encoder writes. -/
theorem decodeOfEncodeIsTheCommand : Obligations.DecodeOfEncodeIsTheCommand := decode_encode

/-- Settles O2: a word that the decoder takes is put together from the fields it reads. -/
theorem encodeOfDecodeIsTheWord : Obligations.EncodeOfDecodeIsTheWord := fun _ _ => decode_eq_instr_iff.mp

/-! ### The (match, mask) rows, field by field (R62) -/

section masks

variable {w mask : Word}

/-- A mask that has every bit of a field keeps the field. -/
theorem extractLsb'_and_of_allOnes {lo len : Nat} (h : mask.extractLsb' lo len = BitVec.allOnes len) :
    (w &&& mask).extractLsb' lo len = w.extractLsb' lo len := by
  rw [BitVec.extractLsb'_and, h, BitVec.and_allOnes]

/-- Under a mask that has all four bits of a register field or none, a zero field says something of the word only where the
mask has them. -/
theorem regField_and_eq_zero {lo : Nat}
    (h : (mask.extractLsb' lo 4).toFin = (0 : Reg) ∨ (mask.extractLsb' lo 4).toFin = (15 : Reg)) :
    ((w &&& mask).extractLsb' lo 4).toFin = (0 : Reg) ↔
      ((mask.extractLsb' lo 4).toFin = (15 : Reg) → (w.extractLsb' lo 4).toFin = (0 : Reg)) := by
  have and_none : ∀ r : Reg, r &&& 0 = 0 := by decide
  have and_all : ∀ r : Reg, r &&& 15 = r := by decide
  rw [BitVec.extractLsb'_and, BitVec.toFin_and]
  obtain h | h := h <;> rw [h]
  · simp [and_none]
  · simp [and_all]

end masks

/-- What a row of R62 asks of a word, field by field: its OP, no reserved bit, and 0 in the register fields that its mask
covers. -/
structure OpcodeRow.MatchesFields (r : OpcodeRow) (w : Word) : Prop where
  op : opField w = opField r.pattern
  reserved : reservedField w = 0
  rd : rdField r.mask = 15 → rdField w = 0
  rs1 : rs1Field r.mask = 15 → rs1Field w = 0
  rs2 : rs2Field r.mask = 15 → rs2Field w = 0
  rs3 : rs3Field r.mask = 15 → rs3Field w = 0

/-- A pattern of R62 is an OP and nothing else. -/
theorem opcodeRows_pattern : ∀ r ∈ opcodeRows, commandWord (opField r.pattern) 0 0 0 0 = r.pattern := by decide

/-- A mask of R62 covers OP, the reserved bits and whole register fields. -/
theorem opcodeRows_mask : ∀ r ∈ opcodeRows,
    opField r.mask = BitVec.allOnes 8 ∧ reservedField r.mask = BitVec.allOnes 8 ∧
    (rdField r.mask = 0 ∨ rdField r.mask = 15) ∧ (rs1Field r.mask = 0 ∨ rs1Field r.mask = 15) ∧
    (rs2Field r.mask = 0 ∨ rs2Field r.mask = 15) ∧ (rs3Field r.mask = 0 ∨ rs3Field r.mask = 15) := by decide

/-- The ten rows have ten opcodes. -/
theorem opcodeRows_opcode_injective : ∀ r ∈ opcodeRows, ∀ r' ∈ opcodeRows,
    opField r.pattern = opField r'.pattern → r = r' := by decide

theorem OpcodeRow.matchesWord_iff {r : OpcodeRow} (hr : r ∈ opcodeRows) {w : Word} :
    r.matchesWord w = true ↔ r.MatchesFields w := by
  obtain ⟨hmaskOp, hmaskReserved, hmaskRd, hmaskRs1, hmaskRs2, hmaskRs3⟩ := opcodeRows_mask r hr
  have hop : opField (w &&& r.mask) = opField w := extractLsb'_and_of_allOnes hmaskOp
  have hreserved : reservedField (w &&& r.mask) = reservedField w := extractLsb'_and_of_allOnes hmaskReserved
  have hfields : r.matchesWord w = true ↔ HasFields (w &&& r.mask) (opField r.pattern) 0 0 0 0 := by
    rw [hasFields_iff, opcodeRows_pattern r hr, OpcodeRow.matchesWord, beq_iff_eq, eq_comm]
  rw [hfields]
  constructor
  · intro h
    exact ⟨hop ▸ h.opIs, hreserved ▸ h.reservedIs, (regField_and_eq_zero hmaskRd).mp h.rdIs,
      (regField_and_eq_zero hmaskRs1).mp h.rs1Is, (regField_and_eq_zero hmaskRs2).mp h.rs2Is,
      (regField_and_eq_zero hmaskRs3).mp h.rs3Is⟩
  · intro h
    exact ⟨hop.trans h.op, (regField_and_eq_zero hmaskRd).mpr h.rd, (regField_and_eq_zero hmaskRs1).mpr h.rs1,
      (regField_and_eq_zero hmaskRs2).mpr h.rs2, (regField_and_eq_zero hmaskRs3).mpr h.rs3,
      hreserved.trans h.reserved⟩

/-! ### The rows and the commands (R62, R64) -/

/-- The row of R62 that a command is of. -/
def Instr.row : Instr → OpcodeRow
  | .fromb _ => opcodeRows[0]
  | .tob _ => opcodeRows[1]
  | .ldi _ => opcodeRows[2]
  | .clr _ => opcodeRows[3]
  | .mov _ _ => opcodeRows[4]
  | .add _ _ _ => opcodeRows[5]
  | .sub _ _ _ => opcodeRows[6]
  | .cmp _ _ => opcodeRows[7]
  | .modmul _ _ _ _ => opcodeRows[8]
  | .modexp _ _ _ _ => opcodeRows[9]

theorem Instr.row_mem (i : Instr) : i.row ∈ opcodeRows := by cases i <;> exact List.getElem_mem _

@[simp] theorem Instr.row_mnemonic (i : Instr) : i.row.mnemonic = i.mnemonic := by cases i <;> rfl

/-- The row of a command matches its word: OP is the row's, and every field that the mask covers is written 0. -/
theorem Instr.row_matchesWord_encode (i : Instr) : i.row.matchesWord (encode i) = true := by
  rw [OpcodeRow.matchesWord_iff i.row_mem]
  cases i <;> constructor <;> simp +decide [encode, Instr.row, Instr.opcode]

/-- A row matches the words of its own commands only: the operands are the fields that its mask leaves out. -/
theorem OpcodeRow.exists_encode_of_matchesWord {r : OpcodeRow} (hr : r ∈ opcodeRows) {w : Word}
    (h : r.matchesWord w = true) : ∃ i : Instr, encode i = w ∧ i.row = r := by
  obtain ⟨hop, hres, hrd, hrs1, hrs2, hrs3⟩ := (OpcodeRow.matchesWord_iff hr).mp h
  fin_cases hr
  · exact ⟨.fromb (rdField w), hasFields_iff.mp ⟨hop, rfl, hrs1 rfl, hrs2 rfl, hrs3 rfl, hres⟩, rfl⟩
  · exact ⟨.tob (rs1Field w), hasFields_iff.mp ⟨hop, hrd rfl, rfl, hrs2 rfl, hrs3 rfl, hres⟩, rfl⟩
  · exact ⟨.ldi (rdField w), hasFields_iff.mp ⟨hop, rfl, hrs1 rfl, hrs2 rfl, hrs3 rfl, hres⟩, rfl⟩
  · exact ⟨.clr (rdField w), hasFields_iff.mp ⟨hop, rfl, hrs1 rfl, hrs2 rfl, hrs3 rfl, hres⟩, rfl⟩
  · exact ⟨.mov (rdField w) (rs1Field w), hasFields_iff.mp ⟨hop, rfl, rfl, hrs2 rfl, hrs3 rfl, hres⟩, rfl⟩
  · exact ⟨.add (rdField w) (rs1Field w) (rs2Field w), hasFields_iff.mp ⟨hop, rfl, rfl, rfl, hrs3 rfl, hres⟩, rfl⟩
  · exact ⟨.sub (rdField w) (rs1Field w) (rs2Field w), hasFields_iff.mp ⟨hop, rfl, rfl, rfl, hrs3 rfl, hres⟩, rfl⟩
  · exact ⟨.cmp (rs1Field w) (rs2Field w), hasFields_iff.mp ⟨hop, hrd rfl, rfl, rfl, hrs3 rfl, hres⟩, rfl⟩
  · exact ⟨.modmul (rdField w) (rs1Field w) (rs2Field w) (rs3Field w),
      hasFields_iff.mp ⟨hop, rfl, rfl, rfl, rfl, hres⟩, rfl⟩
  · exact ⟨.modexp (rdField w) (rs1Field w) (rs2Field w) (rs3Field w),
      hasFields_iff.mp ⟨hop, rfl, rfl, rfl, rfl, hres⟩, rfl⟩

/-- The word of a command is legal by the table. -/
theorem legalWord_encode (i : Instr) : legalWord (encode i) = true :=
  List.any_eq_true.mpr ⟨i.row, i.row_mem, i.row_matchesWord_encode⟩

/-- A word that no row matches is no command's word, so it is Illegal (R64). -/
theorem decode_eq_illegal_of_not_legalWord {w : Word} (h : legalWord w = false) : decode w = .illegal := by
  cases hdecode : decode w with
  | illegal => rfl
  | instr i =>
    obtain rfl := decode_eq_instr_iff.mp hdecode
    exact absurd (legalWord_encode i) (Bool.eq_false_iff.mp h)

/-- Settles O3: a word that a row matches is the word of a command of that row. -/
theorem decoderAcceptsExactlyTheTableRows : Obligations.DecoderAcceptsExactlyTheTableRows := by
  intro w
  refine ⟨fun r hr hmatch => ?_, decode_eq_illegal_of_not_legalWord⟩
  obtain ⟨i, rfl, rfl⟩ := OpcodeRow.exists_encode_of_matchesWord hr hmatch
  exact ⟨i, decode_encode i, i.row_mnemonic.symm⟩

/-- Settles O4: both rows have the word's OP, and no two rows share one. -/
theorem noTwoTableRowsMatchOneWord : Obligations.NoTwoTableRowsMatchOneWord := by
  intro w r r' hr hr' hmatch hmatch'
  have hop := ((OpcodeRow.matchesWord_iff hr).mp hmatch).op
  have hop' := ((OpcodeRow.matchesWord_iff hr').mp hmatch').op
  exact opcodeRows_opcode_injective r hr r' hr' (hop.symm.trans hop')

/-! ### The words as R66 writes them -/

/-- A register number shifted to bit `lo` fills bits `lo` to `lo + 3` of the word. -/
theorem getLsbD_shiftedReg (r : Reg) (lo n : Nat) :
    (BitVec.ofNat 32 r.val <<< lo).getLsbD n =
      (decide (n < 32) && (decide (lo ≤ n) && (decide (n < lo + 4) && r.val.testBit (n - lo)))) := by
  rw [BitVec.getLsbD_shiftLeft, BitVec.getLsbD_ofNat]
  by_cases hin : n < lo + 4
  · grind
  · have hpow : 2 ^ 4 ≤ 2 ^ (n - lo) := Nat.pow_le_pow_right (by decide) (by omega)
    have hout : r.val.testBit (n - lo) = false := Nat.testBit_lt_two_pow (r.isLt.trans_le hpow)
    simp [hout]

/-- The fields of a command word, each shifted to its place and ORed together (R66). -/
theorem commandWord_eq_or (op : BitVec 8) (rd rs1 rs2 rs3 : Reg) : commandWord op rd rs1 rs2 rs3 =
    op.setWidth 32 ||| BitVec.ofNat 32 rd.val <<< 8 ||| BitVec.ofNat 32 rs1.val <<< 12 |||
      BitVec.ofNat 32 rs2.val <<< 16 ||| BitVec.ofNat 32 rs3.val <<< 20 := by
  apply BitVec.eq_of_getLsbD_eq
  intro n hn
  have hop : 8 ≤ n → op.getLsbD n = false := op.getLsbD_of_ge n
  simp only [getLsbD_commandWord, BitVec.getLsbD_or, BitVec.getLsbD_setWidth, getLsbD_shiftedReg]
  split_ifs <;> grind

/-- Settles O5: each row of R66 is `commandWord_eq_or` with the unused fields 0. -/
theorem encodingsAreThoseOfTheSyntaxTable : Obligations.EncodingsAreThoseOfTheSyntaxTable := by
  intro rd rs1 rs2 rs3
  simp [encode, Instr.opcode, commandWord_eq_or]

/-- Settles O6: six words are the words of their commands, and each check of R61 rejects one of the other three. -/
theorem sampleWordsDecode : Obligations.SampleWordsDecode :=
  ⟨decode_encode (.fromb 1), decode_encode (.tob 2), decode_encode (.add 3 1 2), decode_encode (.cmp 4 1),
    decode_encode (.modmul 4 1 2 3), decode_encode (.modexp 3 0 1 2), decode_eq_illegal.mpr ⟨.unmappedOpcode, rfl⟩,
    decode_eq_illegal.mpr ⟨.reservedBits, rfl⟩, decode_eq_illegal.mpr ⟨.unusedField, rfl⟩⟩

end Sys2Proof

namespace Sys2Proof.Machine

/-! ### Illegal words (R64) -/

/-- Settles O11: acceptance decodes the word to Illegal, and the engine's turn completes that with its code. -/
theorem illegalWordCompletesWithIllegalCmd : Obligations.IllegalWordCompletesWithIllegalCmd := by
  constructor
  · intro s v hillegal hwrite hidle
    rw [step_write s hwrite, Block.memWrite_cmd, Block.unlessBusy_idle _ hidle, Block.accept,
      decode_eq_illegal_of_not_legalWord hillegal]
  · intro s hengine hpending
    rw [step_engine s hengine, engineTurn_illegal s.popEvent hpending]
    rfl

/-! ### The registers a command reads (R62, 40_conversion.md R80) -/

theorem ErrorCode.code_ne_zero (e : ErrorCode) : e.code ≠ 0 := by cases e <;> decide

/-- Two blocks agree on what a command with this destination gives out: its code, BUF, the flags, and the destination's
value where there is no error. -/
structure Block.SameOutcome {cfg : Config} (dest : Option Reg) (b b' : Block cfg) : Prop where
  errcode : b'.errcode = b.errcode
  buf : b'.buf = b.buf
  borrow : b'.borrow = b.borrow
  cmp : b'.cmp = b.cmp
  reg : ∀ rd, dest = some rd → b.errcode = 0 → b'.reg rd = b.reg rd

namespace Block.SameOutcome

variable {cfg : Config} {dest : Option Reg} {b : Block cfg} (regs : Vector (BitVec cfg.width) 16)

/-- An error gives out its code and nothing else (60_exceptions.md R163). -/
theorem completeError (e : ErrorCode) :
    (b.completeError e).SameOutcome dest ((b.withRegs regs).completeError e) :=
  ⟨rfl, rfl, rfl, rfl, fun _ _ hcode => absurd hcode e.code_ne_zero⟩

/-- One value written to the destination in both blocks. -/
theorem setReg (rd : Reg) (v : BitVec cfg.width) :
    (b.setReg rd v).completeOk.SameOutcome (some rd) ((b.withRegs regs).setReg rd v).completeOk where
  errcode := rfl
  buf := rfl
  borrow := rfl
  cmp := rfl
  reg := by
    rintro _ ⟨⟩ -
    rw [Block.completeOk_reg, Block.completeOk_reg, Block.reg_setReg_same, Block.reg_setReg_same]

/-- A cause of error that both blocks share: both end in the error, or both go on. -/
theorem guard {p : Prop} [Decidable p] (e : ErrorCode) {r r' : ExecResult cfg}
    (h : (b.complete r).SameOutcome dest ((b.withRegs regs).complete r')) :
    (b.complete (if p then .error e else r)).SameOutcome dest
      ((b.withRegs regs).complete (if p then .error e else r')) := by
  split_ifs
  · exact completeError regs e
  · exact h

end Block.SameOutcome

/-- A command gives out the same on two register files that agree on its sources. -/
theorem exec_withRegs_sameOutcome (s : State) (regs : Vector (BitVec s.cfg.width) 16) (i : Instr)
    (hsources : ∀ j ∈ sources i, (s.block.withRegs regs).reg j = s.block.reg j) :
    ∃ b b' : Block s.cfg, exec i s = .next (s.withBlock b) ∧
      exec i (s.withBlock (s.block.withRegs regs)) = .next (s.withBlock b') ∧
      b.SameOutcome (destination i) b' := by
  cases i with
  | fromb rd => exact ⟨_, _, rfl, rfl, .guard regs _ (.setReg regs rd _)⟩
  | tob rs1 =>
    refine ⟨_, _, rfl, rfl, .guard regs _ ?_⟩
    rw [hsources rs1 (by simp [sources])]
    exact ⟨rfl, rfl, rfl, rfl, nofun⟩
  | ldi rd => exact ⟨_, _, rfl, rfl, .setReg regs rd _⟩
  | clr rd => exact ⟨_, _, rfl, rfl, .setReg regs rd _⟩
  | mov rd rs1 =>
    refine ⟨_, _, rfl, rfl, ?_⟩
    rw [hsources rs1 (by simp [sources])]
    exact .setReg regs rd _
  | add rd rs1 rs2 =>
    refine ⟨_, _, rfl, rfl, ?_⟩
    rw [hsources rs1 (by simp [sources]), hsources rs2 (by simp [sources])]
    exact .setReg regs rd _
  | sub rd rs1 rs2 =>
    refine ⟨_, _, rfl, rfl, ?_⟩
    rw [hsources rs1 (by simp [sources]), hsources rs2 (by simp [sources])]
    exact { Block.SameOutcome.setReg (b := s.block) regs rd _ with borrow := rfl }
  | cmp rs1 rs2 =>
    refine ⟨_, _, rfl, rfl, ?_⟩
    rw [hsources rs1 (by simp [sources]), hsources rs2 (by simp [sources])]
    exact ⟨rfl, rfl, rfl, rfl, nofun⟩
  | modmul rd rs1 rs2 rs3 =>
    refine ⟨_, _, rfl, rfl, ?_⟩
    rw [hsources rs1 (by simp [sources]), hsources rs2 (by simp [sources]), hsources rs3 (by simp [sources])]
    exact .guard regs _ (.guard regs _ (.setReg regs rd _))
  | modexp rd rs1 rs2 rs3 =>
    refine ⟨_, _, rfl, rfl, ?_⟩
    rw [hsources rs1 (by simp [sources]), hsources rs2 (by simp [sources]), hsources rs3 (by simp [sources])]
    exact .guard regs _ (.setReg regs rd _)

/-- Settles O46: `exec_withRegs_sameOutcome`, and a command leaves every register but its destination as it found it. -/
theorem commandsReadOnlyTheRegistersTheyName : Obligations.CommandsReadOnlyTheRegistersTheyName := by
  intro i s regs hsources
  obtain ⟨b, b', hexec, hexec', hsame⟩ := exec_withRegs_sameOutcome s regs i hsources
  obtain ⟨d, hd, -, hwrites⟩ := exec_completes (s.withBlock (s.block.withRegs regs)) i
  obtain rfl : d = b' := by cases hd.symm.trans hexec'; rfl
  exact ⟨b, d, hexec, hexec', hsame.errcode, hsame.buf, hsame.borrow, hsame.cmp, hsame.reg, hwrites.reg⟩

end Sys2Proof.Machine
end

section
/-! PROOFS. The family of 40_conversion.md: the value that FROMB reads (R81), the bytes that TOB writes and what it leaves
unchanged (R82), the constants and copies of LDI, CLR and MOV (R83, R84, R86), the order that CMP writes (R85), and the
round trip and the total order of R87. -/

namespace Sys2Proof.Machine

/-! ### The byte sequences as numbers (R81, R82) -/

section byteSequences

variable (m : Memory)

/-- R81's loop adds up the bytes, the first one with the greatest power of 256. -/
theorem fromBytes_eq_sum (len : Nat) :
    fromBytes m len = ∑ k ∈ Finset.range len, (m.read k).toNat * 256 ^ (len - 1 - k) := by
  induction len with
  | zero => rfl
  | succ len ih =>
    have hshift : ∀ k ∈ Finset.range len,
        (m.read k).toNat * 256 ^ (len - 1 - k) * 256 = (m.read k).toNat * 256 ^ (len + 1 - 1 - k) := by
      intro k hk
      have hlt := Finset.mem_range.mp hk
      rw [mul_assoc, ← Nat.pow_succ, show (len - 1 - k).succ = len + 1 - 1 - k by omega]
    rw [fromBytes_succ, ih, Finset.sum_mul, Finset.sum_congr rfl hshift, Finset.sum_range_succ]
    simp

/-- No bit is lost when a register takes the value of at most NB bytes (R81). -/
theorem fromBytes_lt_width (cfg : Config) {len : Nat} (h : len ≤ cfg.nb) : fromBytes m len < 2 ^ cfg.width := by
  calc fromBytes m len < 256 ^ len := fromBytes_lt m len
    _ ≤ 256 ^ cfg.nb := Nat.pow_le_pow_right (by decide) h
    _ = 2 ^ cfg.width := by rw [cfg.width_eq_bytes, Nat.pow_mul]

/-- Without its last `d` bytes a sequence spells the quotient by 256^d. -/
theorem fromBytes_add_div (k d : Nat) : fromBytes m (k + d) / 256 ^ d = fromBytes m k := by
  induction d with
  | zero => simp
  | succ d ih =>
    have hlast : fromBytes m (k + d + 1) / 256 = fromBytes m (k + d) := by
      have := (m.read (k + d)).isLt
      rw [fromBytes_succ]
      omega
    rw [← Nat.add_assoc, Nat.pow_succ', ← Nat.div_div_eq_div_mul, hlast, ih]

theorem toNat_byteOf (v len k : Nat) : (byteOf v len k).toNat = v / 2 ^ (8 * (len - 1 - k)) % 256 := by
  simp [byteOf]

/-- Byte k of the value that `len` bytes spell is the k-th of them. -/
theorem byteOf_fromBytes {len k : Nat} (h : k < len) : byteOf (fromBytes m len) len k = m.read k := by
  have hdiv := fromBytes_add_div m (k + 1) (len - 1 - k)
  rw [show k + 1 + (len - 1 - k) = len by omega, fromBytes_succ] at hdiv
  apply BitVec.eq_of_toNat_eq
  rw [toNat_byteOf, Nat.pow_mul, show 2 ^ 8 = 256 from rfl, hdiv, Nat.mul_add_mod_self_right]
  exact Nat.mod_eq_of_lt (m.read k).isLt

/-- Writing back the value read changes no byte (R87). -/
theorem read_toBytes_fromBytes (len k : Nat) : (toBytes m (fromBytes m len) len).read k = m.read k := by
  rw [read_toBytes]
  split_ifs with h
  · exact byteOf_fromBytes m h
  · rfl

end byteSequences

/-! ### The completions of FROMB and TOB (R81, R82) -/

section completions

variable {s : State}

theorem exec_fromb_tooLong (rd : Reg) (h : s.cfg.nb < s.block.argLength) :
    exec (.fromb rd) s = .next (s.withBlock (s.block.completeError .invalidLength)) := by
  rw [exec, execFromb, if_pos h, State.complete_eq, Block.complete_error]

theorem exec_fromb_fits (rd : Reg) (h : s.block.argLength ≤ s.cfg.nb) :
    exec (.fromb rd) s = .next (s.withBlock
      (s.block.setReg rd (BitVec.ofNat s.cfg.width (fromBytes s.block.buf s.block.argLength))).completeOk) := by
  rw [exec, execFromb, if_neg (not_lt.mpr h), State.complete_eq, Block.complete_ok]

theorem exec_tob_tooLong (rs1 : Reg) (h : s.cfg.nb < s.block.argLength) :
    exec (.tob rs1) s = .next (s.withBlock (s.block.completeError .invalidLength)) := by
  rw [exec, execTob, if_pos h, State.complete_eq, Block.complete_error]

theorem exec_tob_fits (rs1 : Reg) (h : s.block.argLength ≤ s.cfg.nb) :
    exec (.tob rs1) s = .next (s.withBlock
      (s.block.setBuf (toBytes s.block.buf (s.block.reg rs1).toNat s.block.argLength)).completeOk) := by
  rw [exec, execTob, if_neg (not_lt.mpr h), State.complete_eq, Block.complete_ok]

end completions

/-- Settles O25: the loop's value is the big-endian sum, and it fits in the register. -/
theorem frombReadsTheBigEndianValue : Obligations.FrombReadsTheBigEndianValue := by
  intro s rd
  refine ⟨hasFields_iff.mpr rfl, exec_fromb_tooLong rd, fun hlen => ⟨_, ?_, exec_fromb_fits rd hlen⟩⟩
  rw [BitVec.toNat_ofNat, Nat.mod_eq_of_lt (fromBytes_lt_width _ _ hlen), fromBytes_eq_sum]

/-- Settles O26: below ARG the buffer written holds the bytes of the value, from ARG on the bytes it held before. -/
theorem tobWritesTheBigEndianBytes : Obligations.TobWritesTheBigEndianBytes := by
  intro s rs1
  refine ⟨hasFields_iff.mpr rfl, exec_tob_tooLong rs1, fun hlen => ⟨_, ?_, ?_, exec_tob_fits rs1 hlen⟩⟩
  · intro k hk
    rw [Block.setBuf_buf, read_toBytes, if_pos hk, toNat_byteOf]
  · intro k hk
    rw [Block.setBuf_buf, read_toBytes, if_neg (not_lt.mpr hk)]

/-- Settles O42: with ARG above NB nothing is stored; otherwise TOB writes only BUF, and only below ARG. -/
theorem tobFrame : Obligations.TobFrame := by
  intro s rs1
  by_cases hlong : s.cfg.nb < s.block.argLength
  · exact ⟨_, exec_tob_tooLong rs1 hlong, fun _ => rfl, fun _ _ => rfl, rfl, rfl, rfl, rfl, rfl, rfl⟩
  · obtain ⟨b, hexec, -, hwrites⟩ := exec_completes s (.tob rs1)
    exact ⟨b, hexec, fun j => hwrites.reg j nofun, fun k hk => hwrites.bufTail k (hk.resolve_right hlong),
      hwrites.borrow nofun, hwrites.cmp nofun, hwrites.arg, hwrites.cmd, hwrites.ie, hwrites.overrun⟩

/-! ### LDI, CLR and MOV (R83, R84, R86) -/

/-- A register is wide enough for ARG (R83). -/
theorem Block.toNat_argValue {cfg : Config} (b : Block cfg) : b.argValue.toNat = b.arg.toNat :=
  BitVec.toNat_setWidth_of_le cfg.width_ge

/-- Settles O27: zero-extension to WIDTH, which is at least 32, keeps the number. -/
theorem ldiWritesTheArgument : Obligations.LdiWritesTheArgument := fun s _ =>
  ⟨hasFields_iff.mpr rfl, _, s.block.toNat_argValue, rfl⟩

/-- Settles O28: CLR's completion is the write of 0. -/
theorem clrWritesZero : Obligations.ClrWritesZero := fun _ _ => ⟨hasFields_iff.mpr rfl, rfl⟩

/-- Settles O29: MOV's completion is the write of the source's value. -/
theorem movCopiesTheRegister : Obligations.MovCopiesTheRegister := fun _ _ _ => ⟨hasFields_iff.mpr rfl, rfl⟩

/-! ### The order that CMP writes (R85, R87) -/

section order

variable (cfg : Config) (a b : BitVec cfg.width)

theorem bigintComparator_eq_less_iff : bigintComparator cfg a b = cmpLess ↔ a.toNat < b.toNat := by
  rw [bigintComparator_eq]
  split_ifs with hlt
  · exact iff_of_true rfl hlt
  · exact iff_of_false (by decide) hlt
  · exact iff_of_false (by decide) hlt

theorem bigintComparator_eq_equal_iff : bigintComparator cfg a b = cmpEqual ↔ a = b := by
  rw [bigintComparator_eq]
  split_ifs with hlt heq
  · exact iff_of_false (by decide) fun h => hlt.ne (congrArg BitVec.toNat h)
  · exact iff_of_true rfl (BitVec.eq_of_toNat_eq heq)
  · exact iff_of_false (by decide) fun h => heq (congrArg BitVec.toNat h)

theorem bigintComparator_eq_greater_iff : bigintComparator cfg a b = cmpGreater ↔ b.toNat < a.toNat := by
  rw [bigintComparator_eq]
  split_ifs with hlt heq
  · exact iff_of_false (by decide) hlt.not_gt
  · exact iff_of_false (by decide) heq.not_gt
  · exact iff_of_true rfl (by omega)

/-- Exchanging the operands exchanges LESS and GREATER (R87). -/
theorem bigintComparator_less_iff_swap_greater :
    bigintComparator cfg a b = cmpLess ↔ bigintComparator cfg b a = cmpGreater := by
  rw [bigintComparator_eq_less_iff, bigintComparator_eq_greater_iff]

end order

/-- CMP's completion (R85). -/
theorem exec_cmp (s : State) (rs1 rs2 : Reg) : exec (.cmp rs1 rs2) s = .next (s.withBlock
    (s.block.setCmp (bigintComparator s.cfg (s.block.reg rs1) (s.block.reg rs2))).completeOk) := rfl

/-- Settles O30: the comparator gives the order of the two values, for every N and W. -/
theorem cmpWritesTheUnsignedOrder : Obligations.CmpWritesTheUnsignedOrder := by
  intro s rs1 rs2
  refine ⟨hasFields_iff.mpr rfl, ?_⟩
  rw [exec_cmp, bigintComparator_eq]
  simp only [BitVec.toNat_inj]
  rfl

/-! ### The properties of R87 -/

/-- FROMB into a register and TOB from it, with one length: BUF is rewritten with the bytes of the value they spell. -/
theorem exec_fromb_tob {s : State} (rd : Reg) (h : s.block.argLength ≤ s.cfg.nb) :
    ∃ t u : State, exec (.fromb rd) s = .next t ∧ exec (.tob rd) t = .next u ∧
      u.block.buf = toBytes s.block.buf (fromBytes s.block.buf s.block.argLength) s.block.argLength := by
  refine ⟨_, _, exec_fromb_fits rd h, exec_tob_fits rd h, ?_⟩
  simp [Block.argLength, Nat.mod_eq_of_lt (fromBytes_lt_width _ _ h)]

/-- Settles O47: `read_toBytes_fromBytes` for the round trip, two canonical buffers with equal bytes being equal lists;
and the comparator's three equivalences for the order. -/
theorem conversionRoundTripAndTotalOrder : Obligations.ConversionRoundTripAndTotalOrder := by
  constructor
  · intro s rd hlen
    obtain ⟨t, u, ht, hu, hbuf⟩ := exec_fromb_tob rd hlen
    have hread : ∀ k, u.block.buf.read k = s.block.buf.read k := fun k => by rw [hbuf, read_toBytes_fromBytes]
    refine ⟨t, u, ht, hu, hread, fun hinv => ?_⟩
    have hwf := wf_toBytes _ _ (fromBytes s.block.buf s.block.argLength) _ hinv.bufCanonical hlen
    exact Memory.ext_of_wf (hbuf ▸ hwf) hinv.bufCanonical hread
  · intro s rs1 rs2
    refine ⟨_, _, exec_cmp s rs1 rs2, exec_cmp s rs2 rs1, ?_, bigintComparator_eq_equal_iff _ _ _,
      bigintComparator_less_iff_swap_greater _ _ _, (bigintComparator_less_iff_swap_greater _ _ _).symm⟩
    have hcodes := compareWords_mem s.cfg.w (s.block.reg rs1).toNat (s.block.reg rs2).toNat s.cfg.n
    exact hcodes.elim (.inr ∘ .inl) (.imp_right .inr)

end Sys2Proof.Machine
end

section
/-! PROOFS. The family of 41_add_sub.md: the values and the flag that ADD and SUB write (R100, R101), and the laws of the
adder and the subtractor (R103). -/

namespace Sys2Proof.Machine

/-! ### The laws of the units (R103) -/

section laws

variable (cfg : Config) (a b c : BitVec cfg.width)

theorem bigintAdder_comm : bigintAdder cfg a b = bigintAdder cfg b a := by
  rw [bigintAdder_eq_add, bigintAdder_eq_add, BitVec.add_comm]

theorem bigintAdder_assoc :
    bigintAdder cfg (bigintAdder cfg a b) c = bigintAdder cfg a (bigintAdder cfg b c) := by
  simp only [bigintAdder_eq_add, BitVec.add_assoc]

/-- The carry that the adder discards is the borrow that the subtractor took. -/
theorem bigintAdder_bigintSubtractor : bigintAdder cfg (bigintSubtractor cfg a b).1 b = a := by
  rw [bigintAdder_eq_add, bigintSubtractor_diff, BitVec.sub_add_cancel]

/-- The subtractor borrows exactly where the comparator finds the first operand less. -/
theorem bigintSubtractor_borrow_eq_false_iff :
    (bigintSubtractor cfg a b).2 = false ↔ bigintComparator cfg a b ≠ cmpLess := by
  rw [bigintSubtractor_borrow, decide_eq_false_iff_not, Ne, bigintComparator_eq_less_iff]

/-- The value-level sum of R100. -/
theorem toNat_bigintAdder : (bigintAdder cfg a b).toNat = (a.toNat + b.toNat) % 2 ^ cfg.width := by
  rw [bigintAdder_eq_add, BitVec.toNat_add]

/-- The value-level difference of R101, over the integers: adding 2^WIDTH to keep it a natural number is no change modulo
2^WIDTH. -/
theorem toNat_bigintSubtractor :
    ((bigintSubtractor cfg a b).1.toNat : ℤ) = (a.toNat - b.toNat : ℤ) % 2 ^ cfg.width := by
  have hb : b.toNat ≤ 2 ^ cfg.width := b.isLt.le
  rw [bigintSubtractor_diff, BitVec.toNat_sub]
  push_cast [hb]
  rw [sub_add_eq_add_sub, add_sub_assoc, Int.add_emod_left]

end laws

/-! ### The completions of ADD and SUB (R100, R101) -/

/-- ADD's completion (R100). -/
theorem exec_add (s : State) (rd rs1 rs2 : Reg) : exec (.add rd rs1 rs2) s = .next (s.withBlock
    (s.block.setReg rd (bigintAdder s.cfg (s.block.reg rs1) (s.block.reg rs2))).completeOk) := rfl

/-- SUB's completion (R101). -/
theorem exec_sub (s : State) (rd rs1 rs2 : Reg) : exec (.sub rd rs1 rs2) s = .next (s.withBlock
    ((s.block.setReg rd (bigintSubtractor s.cfg (s.block.reg rs1) (s.block.reg rs2)).1).setBorrow
      (bigintSubtractor s.cfg (s.block.reg rs1) (s.block.reg rs2)).2).completeOk) := rfl

/-- Settles O31: the value that ADD's completion writes is the adder's, which is the sum modulo 2^WIDTH. -/
theorem addWritesTheSumModuloTheWidth : Obligations.AddWritesTheSumModuloTheWidth := fun s rd rs1 rs2 =>
  ⟨hasFields_iff.mpr rfl, _, toNat_bigintAdder s.cfg _ _, exec_add s rd rs1 rs2⟩

/-- Settles O32: the difference and the borrow that SUB's completion writes are the subtractor's. -/
theorem subWritesTheDifferenceAndTheBorrow : Obligations.SubWritesTheDifferenceAndTheBorrow := by
  intro s rd rs1 rs2
  refine ⟨hasFields_iff.mpr rfl, _, toNat_bigintSubtractor s.cfg (s.block.reg rs1) (s.block.reg rs2), ?_⟩
  rw [exec_sub, bigintSubtractor_borrow]
  rfl

/-- Settles O33: the three completions write what their units give, and the units have the laws above. -/
theorem adderAndSubtractorLaws : Obligations.AdderAndSubtractorLaws := by
  constructor
  · intro s rd rs1 rs2
    exact ⟨_, _, _, exec_add s rd rs1 rs2, exec_sub s rd rs1 rs2, exec_cmp s rs1 rs2, rfl, rfl, rfl⟩
  · intro cfg a b c
    have hback := bigintAdder_bigintSubtractor cfg a b
    exact ⟨bigintAdder_comm cfg a b, bigintAdder_assoc cfg a b c,
      fun hnotLess => ⟨(bigintSubtractor_borrow_eq_false_iff cfg a b).mpr hnotLess, hback⟩, hback⟩

end Sys2Proof.Machine
end

section
/-! PROOFS. The family of 42_modmul.md: the bounds of MulRed's accumulator (R120), the product it computes (R121), and
MODMUL's three completions (R122). -/

namespace Sys2Proof.Machine

/-! ### The bounds of the accumulator (R120) -/

section accumulator

variable {a m t : Nat}

/-- Twice a modulus of WIDTH bits is within the accumulator's WIDTH+1 bits. -/
theorem two_mul_le_two_pow_succ {width : Nat} (h : m < 2 ^ width) : 2 * m ≤ 2 ^ (width + 1) := by
  rw [Nat.pow_succ]
  omega

theorem reduceMod_lt (t : Nat) (hm : 0 < m) : reduceMod m t < m :=
  (reduceMod_eq m t hm).trans_lt (Nat.mod_lt t hm)

/-- The add that follows a reduction stays below twice the modulus, for `a = m` too. -/
theorem reduceMod_add_lt (t : Nat) (hm : 0 < m) (ha : a ≤ m) : reduceMod m t + a < 2 * m := by
  have := reduceMod_lt t hm
  omega

/-- Below twice the modulus the trial subtraction ends after at most one subtraction. -/
theorem reduceMod_eq_trialSubtract_one (hm : 0 < m) (h : t < 2 * m) : reduceMod m t = trialSubtract m 1 t :=
  (reduceMod_eq m t hm).trans (trialSubtract_once m t h).symm

theorem mulRedStep_lt (a t : Nat) (bitSet : Bool) (hm : 0 < m) : mulRedStep a m bitSet t < m :=
  (mulRedStep_eq a m t bitSet hm).trans_lt (Nat.mod_lt _ hm)

end accumulator

/-- Settles O35: the doubling and the add stay below 2m, where one subtraction suffices and which is at most
2^(WIDTH+1). -/
theorem mulRedAccumulatorNeverOverflows : Obligations.MulRedAccumulatorNeverOverflows := by
  intro width a m t bitSet hm hwidth ha ht
  have hbound := two_mul_le_two_pow_succ hwidth
  have hdouble : t + t < 2 * m := by omega
  have hadd := reduceMod_add_lt (t + t) hm ha
  exact ⟨hdouble.trans_le hbound, hadd.trans_le hbound, reduceMod_eq_trialSubtract_one hm hdouble,
    reduceMod_eq_trialSubtract_one hm hadd, mulRedStep_lt a t bitSet hm⟩

/-! ### The product (R121) -/

section product

variable {b m : Nat}

/-- From the accumulator's value at bit `i`, the iterations that remain give the product. -/
theorem mulRedLoop_from_bit (a b i : Nat) (hm : 0 < m) :
    mulRedLoop a b m i (a * (b / 2 ^ i) % m) = a * b % m := by
  induction i with
  | zero => simp [mulRedLoop]
  | succ i ih => rw [mulRedLoop, mulRedStep_invariant a b m i hm, ih]

/-- No bit of `b` stands above WIDTH, so the 0 that MulRed begins with is the accumulator's value there. -/
theorem mulRed_eq (a : Nat) {width : Nat} (hm : 0 < m) (hb : b < 2 ^ width) : mulRed width a b m = a * b % m := by
  have hstart : a * (b / 2 ^ width) % m = 0 := by rw [Nat.div_eq_of_lt hb, Nat.mul_zero, Nat.zero_mod]
  rw [mulRed, ← hstart, mulRedLoop_from_bit a b width hm]

/-- The iterations for the bits of `b` from `i` up are those of MulRed on `b div 2^i`. -/
theorem mulRedLoop_high_bits (a : Nat) {i width : Nat} (hm : 0 < m) (hb : b < 2 ^ width) (hi : i ≤ width) :
    mulRedLoop a (b / 2 ^ i) m (width - i) 0 = a * (b / 2 ^ i) % m := by
  have hhigh : b / 2 ^ i < 2 ^ (width - i) := by
    rwa [Nat.div_lt_iff_lt_mul (Nat.two_pow_pos i), ← Nat.pow_add, Nat.sub_add_cancel hi]
  exact mulRed_eq a hm hhigh

end product

/-- Settles O36: the loop's invariant is that the accumulator at bit i is (a * (b div 2^i)) mod m, by which it is below
m there. -/
theorem mulRedComputesTheExactProduct : Obligations.MulRedComputesTheExactProduct := by
  intro width a b m hm hwidth ha hb
  refine ⟨mulRed_eq a hm hb, two_mul_le_two_pow_succ hwidth, fun i hi => ⟨mulRedLoop_high_bits a hm hb hi, ?_⟩,
    fun i _ => ⟨?_, reduceMod_add_lt _ hm ha, mulRedStep_invariant a b m i hm⟩⟩
  · rw [mulRed_eq a hm hb, mulRedLoop_from_bit a b i hm]
  · have hlt : a * (b / 2 ^ (i + 1)) % m < m := Nat.mod_lt _ hm
    omega

/-! ### The completions of MODMUL (R122) -/

section completions

variable {s : State} (rd : Reg) {rs1 rs2 rs3 : Reg}

theorem exec_modmul_zeroModulus (h : s.block.reg rs3 = 0) :
    exec (.modmul rd rs1 rs2 rs3) s = .next (s.withBlock (s.block.completeError .divideByZero)) := by
  rw [exec, execModmul, if_pos h, State.complete_eq, Block.complete_error]

theorem exec_modmul_outOfRange (hm : s.block.reg rs3 ≠ 0)
    (h : s.block.reg rs3 ≤ s.block.reg rs1 ∨ s.block.reg rs3 ≤ s.block.reg rs2) :
    exec (.modmul rd rs1 rs2 rs3) s = .next (s.withBlock (s.block.completeError .operandRange)) := by
  rw [exec, execModmul, if_neg hm, if_pos h, State.complete_eq, Block.complete_error]

theorem exec_modmul_inRange (hm : s.block.reg rs3 ≠ 0)
    (h : ¬(s.block.reg rs3 ≤ s.block.reg rs1 ∨ s.block.reg rs3 ≤ s.block.reg rs2)) :
    exec (.modmul rd rs1 rs2 rs3) s = .next (s.withBlock (s.block.setReg rd (BitVec.ofNat s.cfg.width
      (mulRed s.cfg.width (s.block.reg rs1).toNat (s.block.reg rs2).toNat (s.block.reg rs3).toNat))).completeOk) := by
  rw [exec, execModmul, if_neg hm, if_neg h, State.complete_eq, Block.complete_ok]

end completions

/-- The register that takes MulRed's result loses no bit of it: it is below the modulus, which a register holds. -/
theorem toNat_ofNat_mulRed {width : Nat} (a : Nat) (b m : BitVec width) (hm : m.toNat ≠ 0) :
    (BitVec.ofNat width (mulRed width a b.toNat m.toNat)).toNat = a * b.toNat % m.toNat := by
  have hpos : 0 < m.toNat := Nat.pos_of_ne_zero hm
  rw [mulRed_eq a hpos b.isLt, BitVec.toNat_ofNat, Nat.mod_eq_of_lt ((Nat.mod_lt _ hpos).trans m.isLt)]

/-- Settles O38: MODMUL's guards on registers are the cases of R122 on their numbers, and in the last case the value
written is MulRed's. -/
theorem modmulWritesTheExactProduct : Obligations.ModmulWritesTheExactProduct := by
  intro s rd rs1 rs2 rs3 a b m
  have hzero : s.block.reg rs3 = 0 ↔ m = 0 := BitVec.toNat_eq (y := 0)
  exact ⟨hasFields_iff.mpr rfl,
    fun hm => exec_modmul_zeroModulus rd (hzero.mpr hm),
    fun hm hrange => exec_modmul_outOfRange rd (hzero.not.mpr hm) hrange,
    fun hm ha hb => ⟨_, toNat_ofNat_mulRed a (s.block.reg rs2) (s.block.reg rs3) hm,
      exec_modmul_inRange rd (hzero.not.mpr hm) (not_or.mpr ⟨ha.not_ge, hb.not_ge⟩)⟩⟩

end Sys2Proof.Machine
end

section
/-! PROOFS. The family of 43_modexp.md: ExpMod's iteration and the power it computes (R140, R142), and MODEXP's two
completions (R141). -/

namespace Sys2Proof.Machine

/-! ### The power (R142) -/

section power

variable {width base m : Nat} (hm : 0 < m) (hbase : base < 2 ^ width)

include hm hbase

/-- One iteration squares the accumulator and multiplies by the base if the bit is set, modulo m (R140). The accumulator
need not be below m: the 1 that ExpMod begins with is not when m = 1. -/
theorem expModStep_eq {acc : Nat} (bitSet : Bool) (hacc : acc < 2 ^ width) :
    expModStep width base m bitSet acc = acc ^ 2 * base ^ bitSet.toNat % m := by
  unfold expModStep
  cases bitSet
  · simp [mulRed_eq acc hm hacc, sq]
  · simp [mulRed_eq acc hm hacc, mulRed_eq _ hm hbase, sq]

/-- One iteration takes an accumulator congruent to base^(e div 2^(i+1)) to base^(e div 2^i) mod m. -/
theorem expModStep_invariant {acc e i : Nat} (hacc : acc < 2 ^ width)
    (hcongr : acc ≡ base ^ (e / 2 ^ (i + 1)) [MOD m]) :
    expModStep width base m (e.testBit i) acc = base ^ (e / 2 ^ i) % m := by
  rw [expModStep_eq hm hbase _ hacc, div_two_pow_succ e i, Nat.pow_add, Nat.pow_mul']
  exact (hcongr.pow 2).mul_right _

/-- From the accumulator's value at bit `i`, the iterations that remain give the power. -/
theorem expModLoop_from_bit (e i : Nat) (hwidth : m < 2 ^ width) :
    expModLoop width base e m i (base ^ (e / 2 ^ i) % m) = base ^ e % m := by
  induction i with
  | zero => simp [expModLoop]
  | succ i ih =>
    have hacc : base ^ (e / 2 ^ (i + 1)) % m < 2 ^ width := (Nat.mod_lt _ hm).trans hwidth
    rw [expModLoop, expModStep_invariant hm hbase hacc (Nat.mod_modEq _ m), ih]

/-- No bit of `e` stands above the `k` that are scanned, so the 1 that ExpMod begins with is congruent to the
accumulator's value there; one iteration or more reduces it, also when m = 1. -/
theorem expModLoop_from_one {e k : Nat} (hwidth : m < 2 ^ width) (hk : k ≠ 0) (he : e < 2 ^ k) :
    expModLoop width base e m k 1 = base ^ e % m := by
  obtain ⟨i, rfl⟩ := Nat.exists_eq_succ_of_ne_zero hk
  have hone : 1 < 2 ^ width := by omega
  have hcongr : 1 ≡ base ^ (e / 2 ^ (i + 1)) [MOD m] := by rw [Nat.div_eq_of_lt he, Nat.pow_zero]
  rw [expModLoop, expModStep_invariant hm hbase hone hcongr, expModLoop_from_bit hm hbase e i hwidth]

theorem expMod_eq {e : Nat} (hwidth : m < 2 ^ width) (he : e < 2 ^ width) :
    expMod width base e m = base ^ e % m := by
  have hk : width ≠ 0 := by
    rintro rfl
    omega
  exact expModLoop_from_one hm hbase hwidth hk he

/-- The iterations for the bits of `e` from `i` up are those of ExpMod on `e div 2^i`. -/
theorem expModLoop_high_bits {e i : Nat} (hwidth : m < 2 ^ width) (he : e < 2 ^ width) (hi : i < width) :
    expModLoop width base (e / 2 ^ i) m (width - i) 1 = base ^ (e / 2 ^ i) % m := by
  have hhigh : e / 2 ^ i < 2 ^ (width - i) := by
    rwa [Nat.div_lt_iff_lt_mul (Nat.two_pow_pos i), ← Nat.pow_add, Nat.sub_add_cancel hi.le]
  exact expModLoop_from_one hm hbase hwidth (Nat.sub_ne_zero_of_lt hi) hhigh

end power

/-- Settles O37: the loop's invariant is that the accumulator after the iteration for bit i is base^(e div 2^i) mod m. -/
theorem expModComputesTheExactPower : Obligations.ExpModComputesTheExactPower := by
  intro width base e m _ hm hwidth hbase he
  have hpower := expMod_eq hm hbase hwidth he
  exact ⟨hpower, hpower.trans_lt (Nat.mod_lt _ hm), fun i hi =>
    ⟨expModLoop_high_bits hm hbase hwidth he hi, hpower.trans (expModLoop_from_bit hm hbase e i hwidth).symm⟩⟩

/-! ### The completions of MODEXP (R141) -/

section completions

variable {s : State} (rd rs1 rs2 : Reg) {rs3 : Reg}

theorem exec_modexp_zeroModulus (h : s.block.reg rs3 = 0) :
    exec (.modexp rd rs1 rs2 rs3) s = .next (s.withBlock (s.block.completeError .divideByZero)) := by
  rw [exec, execModexp, if_pos h, State.complete_eq, Block.complete_error]

theorem exec_modexp_nonzeroModulus (h : s.block.reg rs3 ≠ 0) :
    exec (.modexp rd rs1 rs2 rs3) s = .next (s.withBlock (s.block.setReg rd (BitVec.ofNat s.cfg.width
      (expMod s.cfg.width (s.block.reg rs1).toNat (s.block.reg rs2).toNat (s.block.reg rs3).toNat))).completeOk) := by
  rw [exec, execModexp, if_neg h, State.complete_eq, Block.complete_ok]

end completions

/-- The register that takes ExpMod's result loses no bit of it: it is below the modulus, which a register holds. -/
theorem toNat_ofNat_expMod {width : Nat} (base e m : BitVec width) (hm : m.toNat ≠ 0) :
    (BitVec.ofNat width (expMod width base.toNat e.toNat m.toNat)).toNat = base.toNat ^ e.toNat % m.toNat := by
  have hpos : 0 < m.toNat := Nat.pos_of_ne_zero hm
  rw [expMod_eq hpos base.isLt m.isLt e.isLt, BitVec.toNat_ofNat,
    Nat.mod_eq_of_lt ((Nat.mod_lt _ hpos).trans m.isLt)]

/-- Settles O39: MODEXP's guard on the register is the case of R141 on its number, and base and exponent are not
guarded; the value written is ExpMod's. -/
theorem modexpWritesTheExactPower : Obligations.ModexpWritesTheExactPower := by
  intro s rd rs1 rs2 rs3 base e m
  have hzero : s.block.reg rs3 = 0 ↔ m = 0 := BitVec.toNat_eq (y := 0)
  exact ⟨hasFields_iff.mpr rfl,
    fun hm => exec_modexp_zeroModulus rd rs1 rs2 (hzero.mpr hm),
    fun hm => ⟨_, toNat_ofNat_expMod (s.block.reg rs1) (s.block.reg rs2) (s.block.reg rs3) hm,
      exec_modexp_nonzeroModulus rd rs1 rs2 (hzero.not.mpr hm)⟩⟩

end Sys2Proof.Machine
end

section
/-! PROOFS. The family of 60_exceptions.md: acceptance and completion (R160, R161), the writes a busy block drops
(R162, R171), and which command ends in which error and what an error leaves unchanged (R163 to R165). -/

namespace Sys2Proof.Machine

/-! ### Acceptance (R161, R162) -/

/-- A CMD write while idle is `Accept`. -/
theorem step_cmdWrite_idle {s : State} {v : Word} (hwrite : s.nextWrite 0x00C v) (hidle : s.block.pending = none) :
    step s = .next (s.popEvent.withBlock (s.block.accept v)) := by
  rw [step_write s hwrite, Block.memWrite_cmd, s.block.unlessBusy_idle hidle]

/-- Settles O13: the write is `Accept`, and while busy the invariant gives DONE and ERRCODE; ERR follows. -/
theorem idleCmdWriteAcceptsTheWord : Obligations.IdleCmdWriteAcceptsTheWord := by
  refine ⟨fun s v hwrite hidle => step_cmdWrite_idle hwrite hidle, fun s hinv hpending => ?_⟩
  have hbusy : s.block.busy = true := Option.isSome_iff_ne_none.mpr hpending
  obtain ⟨hdone, hcode⟩ := hinv.busyStatus hbusy
  have herr : s.block.err = false := decide_eq_false (not_not.mpr hcode)
  exact ⟨s.block.statusWord_busy.trans hbusy, s.block.statusWord_done.trans hdone,
    s.block.statusWord_err.trans herr, s.block.statusWord_errcode.trans hcode⟩

/-- Settles O14: the busy block drops the write. -/
theorem busyCmdWriteIsDropped : Obligations.BusyCmdWriteIsDropped := by
  intro s v hwrite hbusy
  rw [step_write s hwrite, Block.memWrite_cmd, s.block.unlessBusy_busy hbusy, Block.dropWrite]

/-! ### Completion (R160) -/

/-- The engine's turn right after a legal word is accepted runs its command. -/
theorem engineTurn_accept (s : State) {v : Word} {i : Instr} (hdecode : decode v = .instr i) :
    engineTurn (s.withBlock (s.block.accept v)) = exec i (s.withBlock (s.block.accept v)) :=
  engineTurn_instr _ (by rw [Block.accept_pending, hdecode])

/-- All 32 bits of a command word are its own (30_encoding.md R60). -/
theorem tableWord_toNat (w : Word) : tableWord 32 w.toNat = w := by
  rw [tableWord, Nat.mod_eq_of_lt w.isLt, BitVec.ofNat_toNat, BitVec.setWidth_eq]

/-- Settles O10: the engine's turn runs what is pending, and `withFetchWord` makes the decoded word pending. -/
theorem stepRunsTheDecodedCommand : Obligations.StepRunsTheDecodedCommand := by
  constructor
  · intro s i hengine hrun
    rw [step_engine s hengine, engineTurn_instr s.popEvent hrun]
  · intro s w i hdecode
    rw [State.withFetchWord, tableWord_toNat, step_engine _ rfl]
    exact engineTurn_accept s hdecode

/-- Settles O12: with nothing pending the engine's turn is no change. -/
theorem engineAtAnIdleBlockChangesNothing : Obligations.EngineAtAnIdleBlockChangesNothing := by
  intro s hengine hidle
  rw [step_engine s hengine, engineTurn_idle s.popEvent hidle]

/-- A full-word access at an aligned offset up to the end of BUF is performed (20_memory.md R40, R45). -/
theorem performed_of_aligned (cfg : Config) {off : Nat} (kind : AccessKind) (halign : off % 4 = 0)
    (hoff : off < 0x400 + cfg.nb) :
    BusAccess.performed { addr := cfg.base + off, width := .bits32, lanes := 0b1111, kind := kind } cfg = true := by
  have hwindow := cfg.window_ge
  exact (BusAccess.performed_iff _ cfg).mpr
    ⟨⟨Nat.le_add_right _ _, by dsimp only; omega⟩, rfl, rfl, by rw [Nat.add_sub_cancel_left, halign]⟩

/-- Settles O15: the first step accepts the word, the second is the engine's turn on the state that has accepted it. -/
theorem acceptanceAndCompletionRunTheWord : Obligations.AcceptanceAndCompletionRunTheWord := by
  rintro ⟨cfg, b, events, reads⟩ v i rest hidle hdecode hevents
  obtain rfl : events = HostNotation.put cfg 0x00C v ++ .engine :: rest := hevents
  have hwrite : State.nextWrite ⟨cfg, b, HostNotation.put cfg 0x00C v ++ .engine :: rest, reads⟩ 0x00C v :=
    ⟨rfl, performed_of_aligned cfg _ rfl (by omega)⟩
  rw [run_succ _ 1 (step_cmdWrite_idle hwrite hidle), run_one, step_engine _ rfl]
  exact engineTurn_accept ⟨cfg, b, rest, reads⟩ hdecode

/-- Settles O43: `exec_completes`, and BUSY is `pending`. -/
theorem everyCommandCompletesInOneStep : Obligations.EveryCommandCompletesInOneStep := by
  intro i s
  obtain ⟨b, hexec, hdone, -⟩ := exec_completes s i
  exact ⟨b, hexec, hdone.done, hdone.pending, by rw [Block.busy, hdone.pending]; rfl⟩

/-! ### Errors (R163 to R165) -/

/-- Settles O44: a completion without an error leaves ERRCODE 0, and the error arm is the update stated. -/
theorem errorsWriteNothingButTheCode : Obligations.ErrorsWriteNothingButTheCode := by
  intro i s t h hcode
  obtain ⟨e, he⟩ | ⟨b, hok, -⟩ := exec_cases s i
  · obtain rfl := Host.Outcome.next.inj (he.symm.trans h)
    rfl
  · obtain rfl := Host.Outcome.next.inj (hok.symm.trans h)
    exact absurd b.completeOk_errcode hcode

/-- The code a command ends with is that of the block its completion leaves. -/
theorem errcode_of_exec {i : Instr} {s t : State} {b : Block s.cfg} (h : exec i s = .next t)
    (hcomplete : exec i s = .next (s.withBlock b)) : t.block.errcode = b.errcode := by
  obtain rfl := Host.Outcome.next.inj (hcomplete.symm.trans h)
  rfl

/-- Settles O45: each cause of error, and its absence, has its completion; the code is that completion's. -/
theorem errorCodesOfEachCommand : Obligations.ErrorCodesOfEachCommand := by
  constructor
  · intro i s t h
    cases i with
    | fromb rd =>
      dsimp only
      split_ifs with hlong
      · exact errcode_of_exec h (exec_fromb_tooLong rd hlong)
      · exact errcode_of_exec h (exec_fromb_fits rd (not_lt.mp hlong))
    | tob rs1 =>
      dsimp only
      split_ifs with hlong
      · exact errcode_of_exec h (exec_tob_tooLong rs1 hlong)
      · exact errcode_of_exec h (exec_tob_fits rs1 (not_lt.mp hlong))
    | ldi | clr | mov | add | sub | cmp => exact errcode_of_exec h rfl
    | modmul rd rs1 rs2 rs3 =>
      dsimp only
      split_ifs with hzero hrange
      · exact errcode_of_exec h (exec_modmul_zeroModulus rd hzero)
      · exact errcode_of_exec h (exec_modmul_outOfRange rd hzero hrange)
      · exact errcode_of_exec h (exec_modmul_inRange rd hzero hrange)
    | modexp rd rs1 rs2 rs3 =>
      dsimp only
      split_ifs with hzero
      · exact errcode_of_exec h (exec_modexp_zeroModulus rd rs1 rs2 hzero)
      · exact errcode_of_exec h (exec_modexp_nonzeroModulus rd rs1 rs2 hzero)
  · intro s t hengine hillegal h
    rw [step_engine s hengine, engineTurn_illegal s.popEvent hillegal] at h
    obtain rfl := Host.Outcome.next.inj h
    rfl

/-! ### OVERRUN (R171) -/

section overrun

variable {s t : State}

/-- After a write that a busy block drops, OVERRUN was set before, or the write broke a hazard rule (R194, R195). -/
theorem overrun_of_unlessBusy {a : BusAccess} {written : Block s.cfg} (hinput : a.writesCommandInput s.cfg = true)
    (hset : (s.block.unlessBusy written).overrun = true) (hkeep : written.overrun = s.block.overrun) :
    s.block.overrun = true ∨ a.breaksHazardRule s = true := by
  by_cases hbusy : s.block.busy = true
  · exact .inr (Bool.and_eq_true_iff.mpr ⟨hbusy, hinput⟩)
  · rw [Block.unlessBusy, if_neg hbusy, hkeep] at hset
    exact .inl hset

/-- A write after which OVERRUN is set found it set or broke a hazard rule. -/
theorem overrun_of_memWrite {a : BusAccess} {v : Word} (hkind : a.kind = .write v)
    (h : (s.block.memWrite (a.addr - s.cfg.base) v).overrun = true) :
    s.block.overrun = true ∨ a.breaksHazardRule s = true := by
  cases hreg : windowReg s.cfg (a.addr - s.cfg.base) with
  | param | reserved => simp only [Block.memWrite, hreg] at h; exact .inl h
  | ctrl =>
    simp only [Block.memWrite, hreg, Block.writeCtrl] at h
    split_ifs at h
    · cases h
    · exact .inl h
  | status =>
    simp only [Block.memWrite, hreg, Block.ackStatus_overrun, Bool.and_eq_true] at h
    exact .inl h.1
  | cmd | arg | buf =>
    simp only [Block.memWrite, hreg] at h
    exact overrun_of_unlessBusy (by simp only [BusAccess.writesCommandInput, hkind, hreg]) h rfl

/-- OVERRUN becomes 1 only at an access that breaks a hazard rule. -/
theorem overrun_set_of_step (h : step s = .next t) (hset : t.block.overrun = true) :
    s.block.overrun = true ∨ ∃ a, s.nextAccess a ∧ a.breaksHazardRule s = true := by
  obtain ⟨-, -, rfl⟩ | ⟨-, -, rfl⟩ | ⟨i, -, -, hexec⟩ | ⟨a, -, -, rfl⟩ | ⟨a, v, hnext, hkind, rfl⟩ |
    ⟨rest, -, rfl⟩ := step_cases s h
  · exact .inl hset
  · exact .inl hset
  · obtain ⟨b, hb, -, hwrites⟩ := exec_completes s.popEvent i
    obtain rfl := Host.Outcome.next.inj (hb.symm.trans hexec)
    exact .inl (hwrites.overrun.symm.trans hset)
  · exact .inl hset
  · exact (overrun_of_memWrite hkind hset).imp_right fun hhazard => ⟨a, hnext, hhazard⟩
  · cases hset

/-- OVERRUN becomes 0 only by a reset or an acknowledgement. -/
theorem overrun_cleared_of_step (h : step s = .next t) (hset : s.block.overrun = true)
    (hclear : t.block.overrun = false) :
    s.resetNext = true ∨ ∃ v, s.nextWrite 0x008 v ∧ v.getLsbD 6 = true := by
  obtain ⟨b, events, reads, rfl, heffect⟩ := step_effect h
  have kept (hkeep : b.overrun = s.block.overrun) : False :=
    Bool.false_ne_true (hclear.symm.trans (hkeep.trans hset))
  cases heffect with
  | reset hreset => exact .inl hreset
  | ackStatus v hwrite =>
    have hbit : (s.block.overrun && !v.getLsbD 6) = false := hclear
    rw [hset, Bool.true_and, Bool.not_eq_false'] at hbit
    exact .inr ⟨v, hwrite, hbit⟩
  | completion i _ _ _ _ hwrites => exact (kept hwrites.overrun).elim
  | dropWrite => cases hclear
  | _ => exact (kept rfl).elim

end overrun

/-- Settles O54: a hazard's step is `dropWrite`, and the two lemmas above give the only ways OVERRUN rises and falls. -/
theorem overrunRecordsTheDroppedWrites : Obligations.OverrunRecordsTheDroppedWrites := by
  intro s t h
  refine ⟨?_, overrun_set_of_step h, overrun_cleared_of_step h⟩
  rintro ⟨a, hnext, hhazard⟩
  obtain rfl := step_next_unique h (step_of_breaksHazardRule hnext hhazard)
  exact ⟨rfl, rfl, rfl, rfl, rfl⟩

end Sys2Proof.Machine
end

section
/-! PROOFS. The family of 70_reset_and_hazards.md: where a run ends, and that every run whose accesses are performed does
end (R203, R204). -/

namespace Sys2Proof.Machine

/-! ### The end of a run -/

section runEnd

variable {s s' t t' : State} {k k' : Nat}

theorem State.finished_iff (s : State) :
    s.finished ↔ (∀ a, Event.access a ∉ s.events) ∧ s.block.pending = none :=
  and_congr_left' s.hostDone_iff

/-- A finished state is the end of its own run. -/
theorem State.endsAfter_zero (h : s.finished) : s.endsAfter 0 s :=
  ⟨rfl, h, fun j hj => absurd hj j.not_lt_zero⟩

/-- Before its end a run ends one step later than the run from its next state. -/
theorem State.endsAfter_succ (h : ¬ s.finished) (hstep : step s = .next s') (hend : s'.endsAfter k t) :
    s.endsAfter (k + 1) t := by
  obtain ⟨hrun, hfinished, hfirst⟩ := hend
  refine ⟨(run_succ s k hstep).trans hrun, hfinished, fun j hj u hu => ?_⟩
  cases j with
  | zero =>
    obtain rfl := Host.Outcome.next.inj hu
    exact h
  | succ j => exact hfirst j (Nat.lt_of_succ_lt_succ hj) u ((run_succ s j hstep).symm.trans hu)

/-- A step moves the end of a run by at most one. -/
theorem State.exists_endsAfter_of_step (hstep : step s = .next s') (hend : s'.endsAfter k t) :
    ∃ (n : Nat) (u : State), n ≤ k + 1 ∧ s.endsAfter n u := by
  by_cases h : s.finished
  · exact ⟨0, s, Nat.zero_le _, State.endsAfter_zero h⟩
  · exact ⟨k + 1, t, le_rfl, State.endsAfter_succ h hstep hend⟩

/-- Neither of two ends of one run is before the other. -/
theorem State.endsAfter_le (h : s.endsAfter k t) (h' : s.endsAfter k' t') : k ≤ k' := by
  obtain ⟨-, -, hfirst⟩ := h
  obtain ⟨hrun', hfinished', -⟩ := h'
  exact not_lt.mp fun hlt => hfirst k' hlt t' hrun' hfinished'

theorem State.endsAfter_unique (h : s.endsAfter k t) (h' : s.endsAfter k' t') : k = k' ∧ t = t' := by
  obtain rfl := (State.endsAfter_le h h').antisymm (State.endsAfter_le h' h)
  exact ⟨rfl, Host.Outcome.next.inj (h.1.symm.trans h'.1)⟩

/-! ### Every run whose accesses are performed ends -/

/-- The engine's turn, with or without an event for it, is a step that leaves nothing pending. -/
theorem step_engine_next (h : s.engineNext = true) :
    ∃ b : Block s.cfg, step s = .next (s.popEvent.withBlock b) ∧ b.pending = none := by
  obtain ⟨b, hturn, hidle⟩ := engineTurn_next s.popEvent
  exact ⟨b, (step_engine s h).trans hturn, hidle⟩

/-- A step goes on unless its access is not performed; it takes one event and keeps the configuration. -/
theorem step_takes_event (hperformed : ∀ a, s.events.head? = some (.access a) → a.performed s.cfg = true) :
    ∃ (b : Block s.cfg) (reads : List Word), step s = .next ⟨s.cfg, b, s.events.tail, reads⟩ := by
  cases hhead : s.events.head? with
  | none =>
    have hevents := List.head?_eq_none_iff.mp hhead
    obtain ⟨b, hstep, -⟩ := step_engine_next (s := s) (by rw [State.engineNext, hevents])
    exact ⟨b, _, hstep⟩
  | some e =>
    obtain ⟨rest, hevents⟩ := List.head?_eq_some_iff.mp hhead
    cases e with
    | engine =>
      obtain ⟨b, hstep, -⟩ := step_engine_next (s := s) (by rw [State.engineNext, hevents])
      exact ⟨b, _, hstep⟩
    | powerOnReset => exact ⟨_, _, step_reset s (by rw [State.resetNext, hevents])⟩
    | access a =>
      have hstep := step_access s ⟨hhead, hperformed a hhead⟩
      cases hkind : a.kind with
      | read => exact ⟨_, _, hstep.trans (by rw [hkind])⟩
      | write v => exact ⟨_, _, hstep.trans (by rw [hkind])⟩

/-- With no event left, one turn of the engine at most ends the run: R203's fairness. -/
theorem exists_endsAfter_of_noEvent (hevents : s.events = []) :
    ∃ (k : Nat) (t : State), k ≤ 1 ∧ s.endsAfter k t := by
  obtain ⟨b, hstep, hidle⟩ := step_engine_next (s := s) (by rw [State.engineNext, hevents])
  have hfinished : (s.popEvent.withBlock b).finished :=
    (s.popEvent.withBlock b).finished_iff.mpr ⟨fun a ha => by simp [hevents] at ha, hidle⟩
  exact State.exists_endsAfter_of_step hstep (State.endsAfter_zero hfinished)

/-- Each event is one step, and at most one step follows the last. -/
theorem exists_endsAfter (hperformed : ∀ a, Event.access a ∈ s.events → a.performed s.cfg = true) :
    ∃ (k : Nat) (t : State), k ≤ s.events.length + 1 ∧ s.endsAfter k t := by
  induction hevents : s.events generalizing s with
  | nil => exact exists_endsAfter_of_noEvent hevents
  | cons e rest ih =>
    obtain ⟨b, reads, hstep⟩ := step_takes_event fun a ha => hperformed a (List.mem_of_mem_head? ha)
    have htail : s.events.tail = rest := by rw [hevents, List.tail_cons]
    obtain ⟨k, t, hk, hend⟩ :=
      ih (s := ⟨s.cfg, b, s.events.tail, reads⟩) (fun a ha => hperformed a (List.mem_of_mem_tail ha)) htail
    obtain ⟨n, u, hn, hstart⟩ := State.exists_endsAfter_of_step hstep hend
    exact ⟨n, u, hn.trans (Nat.succ_le_succ hk), hstart⟩

end runEnd

/-- Settles O57: every run ends by induction on its events; an end is the first finished state, so there is one; and a step
from it is the idle engine's. -/
theorem everyRunEndsAtOnePointAndStaysThere : Obligations.EveryRunEndsAtOnePointAndStaysThere := by
  refine ⟨State.finished_iff, fun _ => exists_endsAfter, fun _ _ _ _ _ => State.endsAfter_unique, fun s h hreset => ?_⟩
  obtain ⟨hstep, hstays⟩ := step_finished s h hreset
  exact ⟨hstep, hstays, rfl⟩

end Sys2Proof.Machine
end
